-- ==== Sys2Proof/Config.lean ====
section
/-!
DEFINITION. The parameters of CORE (`00_scope.md` R5). Every parameter is fixed and the model takes none as an
argument; no operation has an open value (`00_scope.md` R13, R14; `93_implementation_defined.md` section 1), so
there is no free value here. The constants a result is computed from (MODULUS, the matrices, the XOR constants) are
in `Machine/Constants.lean`.
-/

namespace Sys2Proof.Config

/-- The width of a command word (R5, R50). -/
def commandBits : Nat := 20

/-- How many entries a table has, index 0 to 255 (R5, R36). -/
def tableLength : Nat := 256

end Sys2Proof.Config
end

