-- ==== Sys2Proof/Word.lean ====
section
/-!
DEFINITION. The values that pass through CORE: field elements, the 16-bit operand and data field, command words,
beats as words, and the response beat as a record of its four fields.
-/

namespace Sys2Proof

/-- A field element: 8 bits, bit `i` the coefficient of `x^i` (`00_scope.md` R5, R6). -/
abbrev Byte := BitVec 8

/-- The 16-bit operand Z of PMOD (`30_encoding.md` R50) and the DATA field of a beat (R60). -/
abbrev Wide := BitVec 16

/-- A command word, bit 19 the most significant (`30_encoding.md` R50). -/
abbrev CmdWord := BitVec 20

/-- A response beat as one 26-bit word, bit 25 the most significant (`30_encoding.md` R60). -/
abbrev BeatWord := BitVec 26

/-- A response beat, one field per field of `30_encoding.md` R60 (its 26-bit word is `Beat.toWord`). -/
structure Beat where
  /-- ERR: the beat reports an illegal command word. -/
  err : Bool
  /-- LAST: the last beat of its command. -/
  last : Bool
  /-- IDX: the entry's index in a table beat, else 0. -/
  idx : Byte
  /-- DATA: the result zero-extended, or the cause code of an error beat. -/
  data : Wide
deriving DecidableEq, Repr

end Sys2Proof
end

