-- ==== Sys2Proof/Syntax.lean ====
section
/-!
DEFINITION. The eleven operations of CORE (`30_encoding.md` R56), one constructor per row of `spec/opcode_table.json`.
Operands have exactly the width of their field (R50, R52), so no operand can be out of range.
-/

namespace Sys2Proof

/-- An operation with its operands: `Op` of `30_encoding.md` R57. -/
inductive Instr where
  /-- Carryless multiply (`40_polynomial.md` R71). -/
  | clmul (x y : Byte)
  /-- Reduce modulo 0x11B (`40_polynomial.md` R74). -/
  | pmod (z : Wide)
  /-- Product in GF(2^8) (`41_field.md` R81). -/
  | gfmul (x y : Byte)
  /-- Multiplicative inverse in GF(2^8) (`41_field.md` R85). -/
  | gfinv (x : Byte)
  /-- Forward affine transform (`42_affine.md` R93). -/
  | afff (x : Byte)
  /-- Inverse affine transform (`42_affine.md` R94). -/
  | affi (x : Byte)
  /-- One entry of the forward S-box (`43_sbox.md` R101). -/
  | sbox (x : Byte)
  /-- One entry of the inverse S-box (`43_sbox.md` R104). -/
  | isbox (x : Byte)
  /-- Emit the whole forward S-box (`43_sbox.md` R106). -/
  | gens
  /-- Emit the whole inverse S-box (`43_sbox.md` R107). -/
  | geni
  /-- Read the status (`44_system.md` R115). -/
  | stat
deriving DecidableEq, Repr

end Sys2Proof
end

