-- ==== Sys2Proof/Machine/Bits.lean ====
section
/-!
DEFINITION. The notation of `00_scope.md` R7 to R9 as functions: bit-length, population count, parity, bit slices,
zero extension into the DATA field, and the rotation of `42_affine.md` R91.
-/

namespace Sys2Proof.Machine

/-- `bitlen(v)`: highest set bit position + 1, and `bitlen(0) = 0` (`00_scope.md` R8). -/
def bitlen (v : Nat) : Nat :=
  if v = 0 then 0 else v.log2 + 1

/-- How many of the bits 0 to `n - 1` of `v` are 1. -/
def popcountBelow (v : Nat) : Nat → Nat
  | 0 => 0
  | n + 1 => popcountBelow v n + (v.testBit n).toNat

/-- `popcount(v)`: the number of bits of `v` that are 1 (`00_scope.md` R9). -/
def popcount (v : Nat) : Nat :=
  popcountBelow v (bitlen v)

/-- `parity(v) = popcount(v) mod 2`, a 1-bit value (`00_scope.md` R9). -/
def parity (v : Nat) : Bool :=
  popcount v % 2 == 1

/-- `v[hi:lo]`: the bits `hi` down to `lo` of `v` (`00_scope.md` R7). -/
def slice (v hi lo : Nat) : Nat :=
  (v >>> lo) % 2 ^ (hi - lo + 1)

/-- `zext_16(v)` for an 8-bit value (`00_scope.md` R7). -/
def zext16 (v : Byte) : Wide :=
  v.setWidth 16

/-- `rotl8(v, k)` for `k` at most 8 (`42_affine.md` R91 law 5). -/
def rotl8 (v : Byte) (k : Nat) : Byte :=
  (v <<< k) ||| (v >>> (8 - k))

end Sys2Proof.Machine
end

