-- ==== Sys2Proof/Machine/Operands.lean ====
section
/-!
DEFINITION. Operand assembly (`30_encoding.md` R50, R52): the fields of a command word, the word built back from
them, and the reading of a bit vector as a polynomial (`00_scope.md` R6). Every operand is unsigned and used as it
stands.
-/

namespace Sys2Proof.Machine

/-- `OP = w[19:16]`. -/
def opField (w : CmdWord) : BitVec 4 :=
  w.extractLsb' 16 4

/-- `Y = w[15:8]`. -/
def yField (w : CmdWord) : Byte :=
  w.extractLsb' 8 8

/-- `X = w[7:0]`. -/
def xField (w : CmdWord) : Byte :=
  w.extractLsb' 0 8

/-- `Z = w[15:0]`, the same bits as `{Y, X}`. -/
def zField (w : CmdWord) : Wide :=
  w.extractLsb' 0 16

/-- The word `(OP << 16) | (Y << 8) | X` of formats F2, F1 and F0 (`30_encoding.md` R51). -/
def wordOfFields (op : BitVec 4) (y x : Byte) : CmdWord :=
  (op.setWidth 20 <<< 16) ||| (y.setWidth 20 <<< 8) ||| x.setWidth 20

/-- The word `(OP << 16) | Z` of format FZ (`30_encoding.md` R51). -/
def wordOfWide (op : BitVec 4) (z : Wide) : CmdWord :=
  (op.setWidth 20 <<< 16) ||| z.setWidth 20

/-- A bit vector read as a polynomial over GF(2): the natural number whose bit `i` is the coefficient of `x^i`
(`00_scope.md` R6). -/
def polyOf {n : Nat} (v : BitVec n) : Nat :=
  v.toNat

end Sys2Proof.Machine
end

