-- ==== Sys2Proof/WellFormed.lean ====
section
/-!
DEFINITION. What is well formed, each check a Bool. An `Instr` needs none: its operands have exactly their field's
width (`30_encoding.md` R52). A command word is legal by its own bits (R53, R54), a beat is one of three kinds (R61).
The operand ranges of a source line are checked in `Machine/Assembler.lean` (R63).
-/

namespace Sys2Proof

/-- The operation code is assigned: not 0x0, 0xC, 0xD, 0xE or 0xF (`30_encoding.md` R54). -/
def CmdWord.opAssigned (w : CmdWord) : Bool :=
  1 ≤ (Machine.opField w).toNat && (Machine.opField w).toNat ≤ 11

/-- In format F1 (OP 0x4 to 0x8) bits 15:8 are zero (`30_encoding.md` R53). -/
def CmdWord.oneOperandZero (w : CmdWord) : Bool :=
  !(4 ≤ (Machine.opField w).toNat && (Machine.opField w).toNat ≤ 8) || Machine.yField w == 0

/-- In format F0 (OP 0x9 to 0xB) bits 15:0 are zero (`30_encoding.md` R53). -/
def CmdWord.noOperandZero (w : CmdWord) : Bool :=
  !(9 ≤ (Machine.opField w).toNat && (Machine.opField w).toNat ≤ 11) || Machine.zField w == 0

/-- A legal command word (`30_encoding.md` R53 to R55). -/
def CmdWord.wf (w : CmdWord) : Bool :=
  CmdWord.opAssigned w && CmdWord.oneOperandZero w && CmdWord.noOperandZero w

/-- The result beat's form (`30_encoding.md` R61): ERR 0, LAST 1, IDX 0. -/
def Beat.isResult (b : Beat) : Bool :=
  !b.err && b.last && b.idx == 0

/-- The table beat's form (`30_encoding.md` R61): ERR 0, LAST exactly at IDX 255, bits 15:8 of DATA zero. -/
def Beat.isTable (b : Beat) : Bool :=
  !b.err && b.last == (b.idx == 255) && b.data.toNat < 256

/-- The error beat (`30_encoding.md` R61): ERR 1, LAST 1, IDX 0, DATA 0x0001. -/
def Beat.isError (b : Beat) : Bool :=
  b.err && b.last && b.idx == 0 && b.data == 1

/-- A beat of one of the three kinds of `30_encoding.md` R61; a result's DATA has bit 15 zero (the widest result,
CLMUL's, has 15 bits). -/
def Beat.wf (b : Beat) : Bool :=
  (b.isResult && b.data.toNat < 32768) || b.isTable || b.isError

end Sys2Proof
end

