-- ==== Sys2Proof/Decode.lean ====
section
/-!
DEFINITION. The decoder of `30_encoding.md` R57, total on all 2^20 words and rejecting by name; the opcode map of R56
as a table of masks and matches; and after them the encoder of R51. The decoder reads the word alone.
-/

namespace Sys2Proof

/-- Why a word is illegal: the three rows of `60_exceptions.md` R120. All three raise the one IllegalCommand and
nothing in CORE records which applied (R121). -/
inductive IllegalCause where
  /-- Reserved operation code (`30_encoding.md` R54). -/
  | reservedOp
  /-- One-operand format with bits 15:8 not zero (`30_encoding.md` R53). -/
  | nonzeroY
  /-- No-operand format with bits 15:0 not zero (`30_encoding.md` R53). -/
  | nonzeroZ
deriving DecidableEq, Repr

/-- `Op` or `Illegal` (`30_encoding.md` R57), the latter with its cause. -/
inductive Decoded where
  | legal (i : Instr)
  | illegal (c : IllegalCause)
deriving DecidableEq, Repr

/-- Format F1: the operation if Y is zero, else illegal. -/
def decodeOneOperand (w : CmdWord) (i : Instr) : Decoded :=
  if Machine.yField w = 0 then .legal i else .illegal .nonzeroY

/-- Format F0: the operation if Z is zero, else illegal. -/
def decodeNoOperand (w : CmdWord) (i : Instr) : Decoded :=
  if Machine.zField w = 0 then .legal i else .illegal .nonzeroZ

/-- `decode(w)` (`30_encoding.md` R57). The last arm refuses, so every word has a verdict. -/
def decode (w : CmdWord) : Decoded :=
  match Machine.opField w with
  | 0x1#4 => .legal (.clmul (Machine.xField w) (Machine.yField w))
  | 0x2#4 => .legal (.pmod (Machine.zField w))
  | 0x3#4 => .legal (.gfmul (Machine.xField w) (Machine.yField w))
  | 0x4#4 => decodeOneOperand w (.gfinv (Machine.xField w))
  | 0x5#4 => decodeOneOperand w (.afff (Machine.xField w))
  | 0x6#4 => decodeOneOperand w (.affi (Machine.xField w))
  | 0x7#4 => decodeOneOperand w (.sbox (Machine.xField w))
  | 0x8#4 => decodeOneOperand w (.isbox (Machine.xField w))
  | 0x9#4 => decodeNoOperand w .gens
  | 0xA#4 => decodeNoOperand w .geni
  | 0xB#4 => decodeNoOperand w .stat
  | _ => .illegal .reservedOp

/-- The decoded operation, if the word is legal. -/
def decodeLegal (w : CmdWord) : Option Instr :=
  match decode w with
  | .legal i => some i
  | .illegal _ => none

/-- The encoder (`30_encoding.md` R51, R56, R63): X in bits 7:0, Y in bits 15:8, Z in bits 15:0. -/
def encode : Instr → CmdWord
  | .clmul x y => Machine.wordOfFields 0x1 y x
  | .pmod z => Machine.wordOfWide 0x2 z
  | .gfmul x y => Machine.wordOfFields 0x3 y x
  | .gfinv x => Machine.wordOfFields 0x4 0 x
  | .afff x => Machine.wordOfFields 0x5 0 x
  | .affi x => Machine.wordOfFields 0x6 0 x
  | .sbox x => Machine.wordOfFields 0x7 0 x
  | .isbox x => Machine.wordOfFields 0x8 0 x
  | .gens => Machine.wordOfFields 0x9 0 0
  | .geni => Machine.wordOfFields 0xA 0 0
  | .stat => Machine.wordOfFields 0xB 0 0

/-- The four formats (`30_encoding.md` R51). -/
inductive Format where
  | f2 | fz | f1 | f0
deriving DecidableEq, Repr

/-- One row of the opcode map (`30_encoding.md` R56). -/
structure OpRow where
  mnemonic : String
  op : BitVec 4
  format : Format
  matchBits : CmdWord
  maskBits : CmdWord
deriving DecidableEq, Repr

/-- The row of an operation in the opcode map of `30_encoding.md` R56. -/
def rowOf : Instr → OpRow
  | .clmul _ _ => ⟨"CLMUL", 0x1, .f2, 0x10000, 0xF0000⟩
  | .pmod _ => ⟨"PMOD", 0x2, .fz, 0x20000, 0xF0000⟩
  | .gfmul _ _ => ⟨"GFMUL", 0x3, .f2, 0x30000, 0xF0000⟩
  | .gfinv _ => ⟨"GFINV", 0x4, .f1, 0x40000, 0xFFF00⟩
  | .afff _ => ⟨"AFFF", 0x5, .f1, 0x50000, 0xFFF00⟩
  | .affi _ => ⟨"AFFI", 0x6, .f1, 0x60000, 0xFFF00⟩
  | .sbox _ => ⟨"SBOX", 0x7, .f1, 0x70000, 0xFFF00⟩
  | .isbox _ => ⟨"ISBOX", 0x8, .f1, 0x80000, 0xFFF00⟩
  | .gens => ⟨"GENS", 0x9, .f0, 0x90000, 0xFFFFF⟩
  | .geni => ⟨"GENI", 0xA, .f0, 0xA0000, 0xFFFFF⟩
  | .stat => ⟨"STAT", 0xB, .f0, 0xB0000, 0xFFFFF⟩

/-- The eleven rows of `30_encoding.md` R56, in its order (a row does not depend on operand values). -/
def opcodeTable : List OpRow :=
  [rowOf (.clmul 0 0), rowOf (.pmod 0), rowOf (.gfmul 0 0), rowOf (.gfinv 0), rowOf (.afff 0), rowOf (.affi 0),
   rowOf (.sbox 0), rowOf (.isbox 0), rowOf .gens, rowOf .geni, rowOf .stat]

/-- `w & mask == match`: the word selects the row (`30_encoding.md` R56). -/
def OpRow.selects (r : OpRow) (w : CmdWord) : Bool :=
  w &&& r.maskBits == r.matchBits

/-- What the decoder reads from an instruction whose bits are `w`, of which `nbits` are given and the rest are 0. A
command word has 20 bits; a number with a bit above them is no command word (log 5). -/
def decodeTableWord (nbits w : Nat) : Option Instr :=
  if w % 2 ^ nbits < 2 ^ Config.commandBits then decodeLegal (BitVec.ofNat 20 (w % 2 ^ nbits)) else none

end Sys2Proof
end

