-- ==== Sys2Proof/Machine/Constants.lean ====
section
/-!
DEFINITION. The constants of CORE (`10_state.md` R21 to R23), which no step writes and RESET does not touch
(`70_reset_and_hazards.md` R141), and the cause code of the one exception (`60_exceptions.md` R120).
-/

namespace Sys2Proof.Machine

/-- `MODULUS = 0x11B`, the polynomial x^8+x^4+x^3+x+1 (`10_state.md` R21). -/
def modulus : Nat := 0x11B

theorem modulus_pos : 0 < modulus := by decide

/-- An 8 by 8 matrix over GF(2) as eight row masks: bit `j` of row `i` is the entry in row `i`, column `j`
(`10_state.md` R22). -/
abbrev BitMatrix := Vector Byte 8

/-- `A_FWD` (`10_state.md` R22, as resolved by `90_conflicts.md` C1). -/
def aFwd : BitMatrix := #v[0xF1, 0xE3, 0xC7, 0x8F, 0x1F, 0x3E, 0x7C, 0xF8]

/-- `A_INV` (`10_state.md` R22, as resolved by `90_conflicts.md` C2). -/
def aInv : BitMatrix := #v[0xA4, 0x49, 0x92, 0x25, 0x4A, 0x94, 0x29, 0x52]

/-- `B_FWD` (`10_state.md` R23). -/
def bFwd : Byte := 0x63

/-- `B_INV` (`10_state.md` R23). -/
def bInv : Byte := 0x05

/-- `A_FWD_PACKED` (`10_state.md` R23). -/
def aFwdPacked : BitVec 64 := 0xF87C3E1F8FC7E3F1

/-- `A_INV_PACKED` (`10_state.md` R23). -/
def aInvPacked : BitVec 64 := 0x5229944A259249A4

/-- `row(P, i) = P[8*i+7 : 8*i]`: byte 0 is the least significant byte (`10_state.md` R23). -/
def packedRow (p : BitVec 64) (i : Nat) : Byte :=
  p.extractLsb' (8 * i) 8

/-- The row masks of a packed matrix (`10_state.md` R23). -/
def unpackMatrix (p : BitVec 64) : BitMatrix :=
  #v[packedRow p 0, packedRow p 1, packedRow p 2, packedRow p 3,
     packedRow p 4, packedRow p 5, packedRow p 6, packedRow p 7]

/-- The cause code of IllegalCommand, DATA of the error beat (`60_exceptions.md` R120). -/
def causeIllegalCommand : Wide := 0x0001

end Sys2Proof.Machine
end

