-- ==== Sys2Proof/Machine/Beats.lean ====
section
/-!
DEFINITION. The response beat as a 26-bit word (`30_encoding.md` R60) and the three kinds of beat under the spec's
notation `OK v`, `T[i] v`, `ERR 1` (R61, R62).
-/

namespace Sys2Proof

/-- `b = (ERR << 25) | (LAST << 24) | (IDX << 16) | DATA` (`30_encoding.md` R60). -/
def Beat.toWord (b : Beat) : BeatWord :=
  ((BitVec.ofBool b.err).setWidth 26 <<< 25) ||| ((BitVec.ofBool b.last).setWidth 26 <<< 24)
    ||| (b.idx.setWidth 26 <<< 16) ||| b.data.setWidth 26

/-- The beat a 26-bit word stands for: ERR bit 25, LAST bit 24, IDX bits 23:16, DATA bits 15:0
(`30_encoding.md` R60). -/
def Beat.ofWord (w : BeatWord) : Beat :=
  ⟨w.getLsbD 25, w.getLsbD 24, w.extractLsb' 16 8, w.extractLsb' 0 16⟩

/-- `OK v`: the result beat with DATA = v (`30_encoding.md` R62). -/
def Beat.ok (v : Wide) : Beat :=
  ⟨false, true, 0, v⟩

/-- `T[i] v`: the table beat with IDX = i, LAST exactly for i = 255 (`30_encoding.md` R62). -/
def Beat.table (i v : Byte) : Beat :=
  ⟨false, i == 255, i, Machine.zext16 v⟩

/-- `ERR 1`: the error beat (`30_encoding.md` R62). -/
def Beat.error : Beat :=
  ⟨true, true, 0, Machine.causeIllegalCommand⟩

end Sys2Proof
end

