-- ==== Sys2Proof/Machine/State.lean ====
section
/-!
DEFINITION. The state of the machine: CORE's record S of four fields (`10_state.md` R15), the response trace T (R25),
and the host's side as plain data: the command words it still has to present (R24) and the schedule that places each
RESET among CORE's steps (`70_reset_and_hazards.md` R156). There is no memory, no register file and no program counter
(R17, R18, `20_memory.md` R35).
-/

namespace Sys2Proof.Machine

/-- The table sequencer SEQ (`10_state.md` R15). -/
structure Seq where
  /-- SEQ.RUN: a table operation is in progress. -/
  run : Bool
  /-- SEQ.INV: the table in progress is the inverse one. -/
  inv : Bool
  /-- SEQ.IDX: the index of the next entry to emit. -/
  idx : Byte
deriving DecidableEq, Repr

/-- The sequencer at rest, all three fields 0 (`10_state.md` R16, R30). -/
def Seq.idle : Seq :=
  ⟨false, false, 0⟩

/-- Who moves next: CORE, or the host firing RESET (`10_state.md` R25; log 1). -/
inductive Turn where
  | core
  | reset
deriving DecidableEq, Repr

/-- The three kinds of step, ACCEPT with its label (`10_state.md` R25). -/
inductive StepKind where
  | accept (w : CmdWord)
  | emit
  | reset
deriving DecidableEq, Repr

/-- The whole machine. -/
structure State where
  /-- SEQ (`10_state.md` R15). -/
  seq : Seq
  /-- FAULT, the sticky record of an illegal word (`10_state.md` R15, R19). -/
  fault : Bool
  /-- The response trace T, oldest beat first (`10_state.md` R25, `20_memory.md` R45). -/
  trace : List Beat
  /-- The command words the host still has to present; it presents the first one now (`10_state.md` R24). -/
  words : List CmdWord
  /-- The schedule: whose turn each coming step is; past its end every turn is CORE's (log 1). -/
  turns : List Turn
deriving DecidableEq, Repr

/-- Why the machine stops with a fault: never. The one exception of CORE, IllegalCommand, is fully defined and is a
next state (`60_exceptions.md` R120, R136; log 14); no step and no meaning answers a fault. Safe. -/
inductive Fault where
deriving DecidableEq, Repr

/-- Why an instruction has no meaning. -/
inductive Refusal where
  /-- Raised only by an arm of `exec` whose instruction has no meaning yet; no arm of this model does. Safe. -/
  | notModelled (mnemonic : String)
deriving DecidableEq, Repr

/-- The machine right after reset: every field of S is 0 and the trace is empty (`10_state.md` R30,
`70_reset_and_hazards.md` R143); the host has nothing to present and has placed no RESET (log 1, log 4). -/
def State.reset : State :=
  ⟨Seq.idle, false, [], [], []⟩

end Sys2Proof.Machine
end

