-- ==== Sys2Proof/Machine/Flags.lean ====
section
/-!
DEFINITION. The one flag of CORE, FAULT (`10_state.md` R19), and its view STATUS (R20). No operation computes a carry,
overflow, zero or sign flag, so there is no other flag computation.
-/

namespace Sys2Proof.Machine

/-- STATUS: bit 0 is FAULT, bits 15:1 are zero (`10_state.md` R20). -/
def statusOf (fault : Bool) : Wide :=
  (BitVec.ofBool fault).setWidth 16

/-- `S.FAULT <- 1`, by the IllegalCommand exception alone (`10_state.md` R15). -/
def State.setFault (s : State) : State :=
  { s with fault := true }

/-- `S.FAULT <- 0`, by RESET alone (`60_exceptions.md` R125). -/
def State.clearFault (s : State) : State :=
  { s with fault := false }

end Sys2Proof.Machine
end

