-- ==== Sys2Proof/Machine/Ops.lean ====
section
/-!
DEFINITION. The named operations on the state: emitting a beat, taking the exception IllegalCommand, starting the
sequencer, RESET, and consuming a word or a turn of the host's side. There is no return from an exception, since
control never leaves (`60_exceptions.md` R125), and no memory or register operation (`10_state.md` R17, `20_memory.md`
R35).
-/

namespace Sys2Proof.Machine

/-- `emit(ERR, LAST, IDX, DATA)`: append one beat to the response trace (`30_encoding.md` R60). -/
def State.emit (s : State) (b : Beat) : State :=
  { s with trace := s.trace ++ [b] }

/-- The end of every single-result operation: `emit(ERR=0, LAST=1, IDX=0, DATA=v)`, and S is unchanged
(`10_state.md` R26). -/
def State.emitResult (s : State) (v : Wide) : State :=
  s.emit (.ok v)

/-- `raise IllegalCommand`: FAULT is set and the error beat is emitted, SEQ is unchanged and the operation is not
performed (`60_exceptions.md` R120). Nothing else is recorded (R121). -/
def State.raiseIllegal (s : State) : State :=
  s.setFault.emit .error

/-- `S.SEQ <- q`. -/
def State.setSeq (s : State) (q : Seq) : State :=
  { s with seq := q }

/-- The ACCEPT effect of GENS (`inv = false`) and GENI (`inv = true`): the sequencer starts at index 0 and no beat is
emitted (`10_state.md` R26). -/
def State.startTable (s : State) (inv : Bool) : State :=
  s.setSeq ⟨true, inv, 0⟩

/-- RESET: every field of S is 0, nothing is emitted, the trace and the waiting words stay
(`70_reset_and_hazards.md` R140, R141). -/
def State.resetCore (s : State) : State :=
  (s.setSeq .idle).clearFault

/-- CORE consumes the word the host presents (`20_memory.md` R46). -/
def State.dropWord (s : State) : State :=
  { s with words := s.words.tail }

/-- One turn of the schedule passes (log 1). -/
def State.dropTurn (s : State) : State :=
  { s with turns := s.turns.tail }

end Sys2Proof.Machine
end

