-- ==== Sys2Proof/Machine/Affine.lean ====
section
/-!
DEFINITION. The affine transform over GF(2) for any matrix and constant (`42_affine.md` R90), its packed form, and the
operations AFFF (R93) and AFFI (R94), which apply it with the two fixed pairs (R92).
-/

namespace Sys2Proof.Machine

/-- The rows of a matrix in the loop's order, 0 to 7. -/
def rowOrder : List (Fin 8) :=
  [0, 1, 2, 3, 4, 5, 6, 7]

/-- The matrix part: bit `i` of the accumulator is `parity(R[i] & x)` (`42_affine.md` R90). -/
def matVec (r : BitMatrix) (x : Byte) : Byte :=
  rowOrder.foldl (fun acc i => acc ||| ((BitVec.ofBool (parity (polyOf (r.get i &&& x)))).setWidth 8 <<< i.val)) 0

/-- `affine(R, x, b)`: the matrix part XOR `b` (`42_affine.md` R90). -/
def affine (r : BitMatrix) (x b : Byte) : Byte :=
  matVec r x ^^^ b

/-- `affine_packed(P, x, b)` for a matrix in the packed 64-bit form (`42_affine.md` R90, `10_state.md` R23). -/
def affinePacked (p : BitVec 64) (x b : Byte) : Byte :=
  affine (unpackMatrix p) x b

/-- AFFF (`42_affine.md` R93): the forward pair. -/
def execAfff (x : Byte) (s : State) : Host.Outcome State Fault Refusal :=
  .next (s.emitResult (zext16 (affine aFwd x bFwd)))

/-- AFFI (`42_affine.md` R94): the inverse pair. -/
def execAffi (x : Byte) (s : State) : Host.Outcome State Fault Refusal :=
  .next (s.emitResult (zext16 (affine aInv x bInv)))

end Sys2Proof.Machine
end

