-- ==== Sys2Proof/Machine/Polynomial.lean ====
section
/-!
DEFINITION. Polynomial arithmetic over GF(2) on unbounded naturals (`40_polynomial.md` R70, R73) and the operations
CLMUL (R71) and PMOD (R74). Nothing is truncated inside a function (`91_not_in_source.md` N14).
-/

namespace Sys2Proof.Machine

/-- The accumulator of `clmul` after the iterations `i = 0` to `n - 1` (`40_polynomial.md` R70). -/
def clmulBelow (x y : Nat) : Nat → Nat
  | 0 => 0
  | n + 1 => if x.testBit n then clmulBelow x y n ^^^ (y <<< n) else clmulBelow x y n

/-- `clmul(x, y)`: the product of two polynomials over GF(2), no reduction (`40_polynomial.md` R70). -/
def clmul (x y : Nat) : Nat :=
  clmulBelow x y (bitlen x)

/-- At most `fuel` iterations of the reducer's loop from `r` (`40_polynomial.md` R73). -/
def pmodLoop (m : Nat) : Nat → Nat → Nat
  | 0, r => r
  | fuel + 1, r =>
    if bitlen m ≤ bitlen r then pmodLoop m fuel (r ^^^ (m <<< (bitlen r - bitlen m))) else r

/-- `pmod(x, m)`: the remainder of `x` modulo `m` (`40_polynomial.md` R73). A modulus of 0 is outside the domain, so it
is a precondition (R76; log 8). The bit-length of `x` bounds the iterations (R73; log 9). -/
def pmod (x m : Nat) (_ : 0 < m) : Nat :=
  pmodLoop m (bitlen x) x

/-- How many iterations the loop of `pmodLoop` makes (`40_polynomial.md` R74, R75 law 6). -/
def pmodLoopSteps (m : Nat) : Nat → Nat → Nat
  | 0, _ => 0
  | fuel + 1, r =>
    if bitlen m ≤ bitlen r then pmodLoopSteps m fuel (r ^^^ (m <<< (bitlen r - bitlen m))) + 1 else 0

/-- The number of loop iterations of `pmod(x, m)`; no step depends on it (`70_reset_and_hazards.md` R155). -/
def pmodSteps (x m : Nat) (_ : 0 < m) : Nat :=
  pmodLoopSteps m (bitlen x) x

/-- CLMUL (`40_polynomial.md` R71): the 15-bit product, zero-extended. -/
def execClmul (x y : Byte) (s : State) : Host.Outcome State Fault Refusal :=
  .next (s.emitResult (BitVec.ofNat 16 (clmul (polyOf x) (polyOf y))))

/-- PMOD (`40_polynomial.md` R74): the 8-bit remainder modulo MODULUS, zero-extended. -/
def execPmod (z : Wide) (s : State) : Host.Outcome State Fault Refusal :=
  .next (s.emitResult (BitVec.ofNat 16 (pmod (polyOf z) modulus modulus_pos)))

end Sys2Proof.Machine
end

