-- ==== Sys2Proof/Machine/Field.lean ====
section
/-!
DEFINITION. The field GF(2^8): multiplication (`41_field.md` R80), inversion by the reference search with the explicit
test for zero (R84), and the operations GFMUL (R81) and GFINV (R85).
-/

namespace Sys2Proof.Machine

/-- `gfmul(x, y) = pmod(clmul(x, y), 0x11B)` (`41_field.md` R80). The remainder is below 2^8
(`40_polynomial.md` R75 law 1), so the 8-bit result drops nothing. -/
def gfmul (x y : Byte) : Byte :=
  BitVec.ofNat 8 (pmod (clmul (polyOf x) (polyOf y)) modulus modulus_pos)

/-- The candidates of the search, 1 to 255 ascending (`41_field.md` R84). -/
def inverseCandidates : List Byte :=
  (List.range 255).map fun k => BitVec.ofNat 8 (k + 1)

/-- `gfinv(x)` (`41_field.md` R84): 0 for 0, normal output (R83); else the first candidate whose product with `x` is 1.
The search always finds one, so the default is not reached (log 10). -/
def gfinv (x : Byte) : Byte :=
  if x = 0 then 0 else (inverseCandidates.find? fun y => gfmul x y == 1).getD 0

/-- GFMUL (`41_field.md` R81). -/
def execGfmul (x y : Byte) (s : State) : Host.Outcome State Fault Refusal :=
  .next (s.emitResult (zext16 (gfmul x y)))

/-- GFINV (`41_field.md` R85). -/
def execGfinv (x : Byte) (s : State) : Host.Outcome State Fault Refusal :=
  .next (s.emitResult (zext16 (gfinv x)))

end Sys2Proof.Machine
end

