-- ==== Sys2Proof/Machine/Sbox.lean ====
section
/-!
DEFINITION. The S-box and its inverse (`43_sbox.md` R100, R103), the single-entry operations SBOX (R101) and ISBOX
(R104), the table operations GENS (R106) and GENI (R107), and the EMIT step that follows them (`10_state.md` R27).
-/

namespace Sys2Proof.Machine

/-- `sbox(x)`: field inversion first, affine transform second (`43_sbox.md` R100). -/
def sbox (x : Byte) : Byte :=
  affine aFwd (gfinv x) bFwd

/-- `inv_sbox(x)`: affine transform first, field inversion second (`43_sbox.md` R103). -/
def invSbox (x : Byte) : Byte :=
  gfinv (affine aInv x bInv)

/-- Entry `i` of the table that SEQ.INV selects (`10_state.md` R27). -/
def tableEntry (inv : Bool) (i : Byte) : Byte :=
  if inv then invSbox i else sbox i

/-- The row and column of an entry in the 16 by 16 layout: `i[7:4]` and `i[3:0]` (`43_sbox.md` R108). -/
def tablePosition (i : Byte) : Nat × Nat :=
  (slice i.toNat 7 4, slice i.toNat 3 0)

/-- SBOX (`43_sbox.md` R101). -/
def execSbox (x : Byte) (s : State) : Host.Outcome State Fault Refusal :=
  .next (s.emitResult (zext16 (sbox x)))

/-- ISBOX (`43_sbox.md` R104). -/
def execIsbox (x : Byte) (s : State) : Host.Outcome State Fault Refusal :=
  .next (s.emitResult (zext16 (invSbox x)))

/-- GENS (`43_sbox.md` R106): the ACCEPT step starts the forward table; the EMIT steps emit it. -/
def execGens (s : State) : Host.Outcome State Fault Refusal :=
  .next (s.startTable false)

/-- GENI (`43_sbox.md` R107): the ACCEPT step starts the inverse table; the EMIT steps emit it. -/
def execGeni (s : State) : Host.Outcome State Fault Refusal :=
  .next (s.startTable true)

/-- The sequencer after the entry `q.idx`: at rest after entry 255, else one index further (`10_state.md` R27). -/
def Seq.advance (q : Seq) : Seq :=
  if q.idx = 255 then .idle else { q with idx := q.idx + 1 }

/-- EMIT (`10_state.md` R27): one table beat, then the sequencer advances; FAULT is not touched. -/
def State.emitEntry (s : State) : State :=
  (s.emit (.table s.seq.idx (tableEntry s.seq.inv s.seq.idx))).setSeq s.seq.advance

end Sys2Proof.Machine
end

