-- ==== Sys2Proof/Machine/System.lean ====
section
/-!
DEFINITION. The one system operation, STAT (`44_system.md` R115, R116).
-/

namespace Sys2Proof.Machine

/-- STAT (`44_system.md` R115): DATA is STATUS; FAULT is read and not cleared. -/
def execStat (s : State) : Host.Outcome State Fault Refusal :=
  .next (s.emitResult (statusOf s.fault))

end Sys2Proof.Machine
end

