-- ==== Sys2Proof/Machine/Dispatch.lean ====
section
/-!
DEFINITION. The meaning of each operation: what the ACCEPT step of its word does once the word has been taken
(`10_state.md` R26). ACCEPT's precondition SEQ.RUN = 0 is checked by the step (log 7).
-/

namespace Sys2Proof.Machine

-- One arm per row of spec/opcode_table.json, in the table's order.
def exec (i : Instr) (s : State) : Host.Outcome State Fault Refusal :=
  match i with
  | .clmul x y => Sys2Proof.Machine.execClmul x y s
  | .pmod z => Sys2Proof.Machine.execPmod z s
  | .gfmul x y => Sys2Proof.Machine.execGfmul x y s
  | .gfinv x => Sys2Proof.Machine.execGfinv x s
  | .afff x => Sys2Proof.Machine.execAfff x s
  | .affi x => Sys2Proof.Machine.execAffi x s
  | .sbox x => Sys2Proof.Machine.execSbox x s
  | .isbox x => Sys2Proof.Machine.execIsbox x s
  | .gens => Sys2Proof.Machine.execGens s
  | .geni => Sys2Proof.Machine.execGeni s
  | .stat => Sys2Proof.Machine.execStat s

end Sys2Proof.Machine
end

