-- ==== Sys2Proof/Machine/Agents.lean ====
section
/-!
DEFINITION. The transition system of `10_state.md` R25: which kind of step is enabled, which one is taken, and what
each does. The schedule in the state says whose turn it is (log 1).
-/

namespace Sys2Proof.Machine

/-- When a kind of step is enabled (`10_state.md` R25): ACCEPT of `w` when SEQ.RUN = 0 and the host presents `w`, EMIT
when SEQ.RUN = 1, RESET always. -/
def State.enabled (s : State) : StepKind → Bool
  | .accept w => !s.seq.run && s.words.head? == some w
  | .emit => s.seq.run
  | .reset => true

/-- The step CORE takes on its own turn, if one is enabled (`10_state.md` R25). -/
def State.coreStep (s : State) : Option StepKind :=
  if s.seq.run then some .emit else s.words.head?.map .accept

/-- The step that comes next: RESET on the host's turn, else CORE's; none when CORE is idle and the host presents no
word (`60_exceptions.md` R135). -/
def State.nextKind (s : State) : Option StepKind :=
  match s.turns.head? with
  | some .reset => some .reset
  | _ => s.coreStep

/-- ACCEPT of the word `w`, already taken from the channel (`10_state.md` R26): an illegal word raises IllegalCommand, a
legal one runs its operation. -/
def acceptWord (w : CmdWord) (s : State) : Host.Outcome State Fault Refusal :=
  match decode w with
  | .legal i => exec i s
  | .illegal _ => .next s.raiseIllegal

/-- The effect of one step (`10_state.md` R26, R27, `70_reset_and_hazards.md` R140). -/
def State.take (s : State) : StepKind → Host.Outcome State Fault Refusal
  | .accept w => acceptWord w s.dropWord
  | .emit => .next s.emitEntry
  | .reset => .next s.resetCore

/-- A step of the machine: the turn passes and the step that comes next is taken. When none is enabled the machine
idles and nothing but the turn changes (`60_exceptions.md` R135; log 2). -/
def stepMachine (s : State) : Host.Outcome State Fault Refusal :=
  match s.nextKind with
  | some k => s.dropTurn.take k
  | none => .next s.dropTurn

/-- The state with the word `w` presented first, CORE idle and on turn, so that the next step accepts `w` (log 4). -/
def State.presentFirst (s : State) (w : CmdWord) : State :=
  { s with seq := .idle, words := w :: s.words, turns := .core :: s.turns }

end Sys2Proof.Machine
end

