-- ==== Sys2Proof/Machine/Step.lean ====
section
/-!
DEFINITION. One step of the machine, and the placing of one command word so that the next step accepts it (log 4).
-/

namespace Sys2Proof.Machine

/-- One atomic step: ACCEPT, EMIT or RESET, or an idle turn (`10_state.md` R25). -/
def step (s : State) : Host.Outcome State Fault Refusal :=
  stepMachine s

/-- `s` with the word whose bits are `w` (of which `nbits` are given, the rest 0) presented first; CORE fetches from no
memory, so the command channel is where the next instruction comes from (`10_state.md` R18). -/
def State.withFetchWord (s : State) (nbits w : Nat) : State :=
  s.presentFirst (BitVec.ofNat 20 (w % 2 ^ nbits))

end Sys2Proof.Machine
end

