-- ==== Sys2Proof/Machine/Assembler.lean ====
section
/-!
DEFINITION. The assembler of `30_encoding.md` R63 and its pseudo-instruction GENALL (R64): a listing's lines, the words
they stand for, and the reading of one line of text. It is notation for the host; no step of CORE uses it. Text is a
list of characters.
-/

namespace Sys2Proof.Machine

/-- One statement of a listing, its operands still unchecked numbers (`30_encoding.md` R63, R64). -/
inductive Stmt where
  | clmul (x y : Nat)
  | pmod (z : Nat)
  | gfmul (x y : Nat)
  | gfinv (x : Nat)
  | afff (x : Nat)
  | affi (x : Nat)
  | sbox (x : Nat)
  | isbox (x : Nat)
  | gens
  | geni
  | stat
  | word (n : Nat)
  | genall
  | reset
deriving DecidableEq, Repr

/-- What the host gives CORE: a command word, or the RESET event (`70_reset_and_hazards.md` R150). -/
inductive HostInput where
  | command (w : CmdWord)
  | reset
deriving DecidableEq, Repr

/-- The operand ranges of `30_encoding.md` R63. -/
def Stmt.wf : Stmt → Bool
  | .clmul x y => x ≤ 255 && y ≤ 255
  | .pmod z => z ≤ 65535
  | .gfmul x y => x ≤ 255 && y ≤ 255
  | .gfinv x => x ≤ 255
  | .afff x => x ≤ 255
  | .affi x => x ≤ 255
  | .sbox x => x ≤ 255
  | .isbox x => x ≤ 255
  | .word n => n ≤ 0xFFFFF
  | .gens => true
  | .geni => true
  | .stat => true
  | .genall => true
  | .reset => true

/-- The command of an operation. -/
def commandOf (i : Instr) : List HostInput :=
  [.command (encode i)]

/-- The host inputs of a statement whose operands are in range (`30_encoding.md` R63, R64). -/
def Stmt.inputs : Stmt → List HostInput
  | .clmul x y => commandOf (.clmul (BitVec.ofNat 8 x) (BitVec.ofNat 8 y))
  | .pmod z => commandOf (.pmod (BitVec.ofNat 16 z))
  | .gfmul x y => commandOf (.gfmul (BitVec.ofNat 8 x) (BitVec.ofNat 8 y))
  | .gfinv x => commandOf (.gfinv (BitVec.ofNat 8 x))
  | .afff x => commandOf (.afff (BitVec.ofNat 8 x))
  | .affi x => commandOf (.affi (BitVec.ofNat 8 x))
  | .sbox x => commandOf (.sbox (BitVec.ofNat 8 x))
  | .isbox x => commandOf (.isbox (BitVec.ofNat 8 x))
  | .gens => commandOf .gens
  | .geni => commandOf .geni
  | .stat => commandOf .stat
  | .word n => [.command (BitVec.ofNat 20 n)]
  | .genall => commandOf .gens ++ commandOf .geni
  | .reset => [.reset]

/-- A statement assembled: none where an operand is outside its range, an assembler error (`30_encoding.md` R63). -/
def assemble (t : Stmt) : Option (List HostInput) :=
  if t.wf then some t.inputs else none

/-- A blank between the parts of a line (log 12). -/
def isBlank (c : Char) : Bool :=
  c == ' ' || c == '\t'

/-- A text without the blanks at its two ends. -/
def trimBlanks (t : List Char) : List Char :=
  ((t.dropWhile isBlank).reverse.dropWhile isBlank).reverse

/-- The value of a decimal or hexadecimal digit (either case; log 12). -/
def digitValue (c : Char) : Option Nat :=
  if '0' ≤ c ∧ c ≤ '9' then some (c.toNat - '0'.toNat)
  else if 'a' ≤ c ∧ c ≤ 'f' then some (c.toNat - 'a'.toNat + 10)
  else if 'A' ≤ c ∧ c ≤ 'F' then some (c.toNat - 'A'.toNat + 10)
  else none

/-- The value of a row of digits in a base, after the value read so far. -/
def digitsValue (base : Nat) : Nat → List Char → Option Nat
  | v, [] => some v
  | v, c :: cs =>
    match digitValue c with
    | some d => if d < base then digitsValue base (v * base + d) cs else none
    | none => none

/-- A numeral: decimal, or hexadecimal after `0x` (`30_encoding.md` R63). -/
def readNumeral : List Char → Option Nat
  | [] => none
  | '0' :: 'x' :: c :: cs => digitsValue 16 0 (c :: cs)
  | c :: cs => digitsValue 10 0 (c :: cs)

/-- The parts of a text between commas. -/
def splitCommas : List Char → List (List Char)
  | [] => [[]]
  | ',' :: cs => [] :: splitCommas cs
  | c :: cs =>
    match splitCommas cs with
    | [] => [[c]]
    | part :: rest => (c :: part) :: rest

/-- The operands of a line: none, or numerals separated by commas (`30_encoding.md` R63). -/
def readOperands (t : List Char) : Option (List Nat) :=
  if (trimBlanks t).isEmpty then some [] else (splitCommas t).mapM fun p => readNumeral (trimBlanks p)

/-- The statement of a mnemonic and its operands, X before Y (`30_encoding.md` R63). -/
def readStmt : List Char → List Nat → Option Stmt
  | ['C', 'L', 'M', 'U', 'L'], [x, y] => some (.clmul x y)
  | ['P', 'M', 'O', 'D'], [z] => some (.pmod z)
  | ['G', 'F', 'M', 'U', 'L'], [x, y] => some (.gfmul x y)
  | ['G', 'F', 'I', 'N', 'V'], [x] => some (.gfinv x)
  | ['A', 'F', 'F', 'F'], [x] => some (.afff x)
  | ['A', 'F', 'F', 'I'], [x] => some (.affi x)
  | ['S', 'B', 'O', 'X'], [x] => some (.sbox x)
  | ['I', 'S', 'B', 'O', 'X'], [x] => some (.isbox x)
  | ['G', 'E', 'N', 'S'], [] => some .gens
  | ['G', 'E', 'N', 'I'], [] => some .geni
  | ['S', 'T', 'A', 'T'], [] => some .stat
  | ['.', 'w', 'o', 'r', 'd'], [n] => some (.word n)
  | ['G', 'E', 'N', 'A', 'L', 'L'], [] => some .genall
  | ['R', 'E', 'S', 'E', 'T'], [] => some .reset
  | _, _ => none

/-- The host inputs of one line of text: a comment runs from `#` to the line's end, an empty line stands for nothing,
and a line that is no statement or has an operand out of range is an assembler error (`30_encoding.md` R63). -/
def assembleLine (line : List Char) : Option (List HostInput) :=
  let t := trimBlanks (line.takeWhile fun c => c != '#')
  if t.isEmpty then some []
  else do
    let operands ← readOperands (t.dropWhile fun c => !isBlank c)
    let stmt ← readStmt (t.takeWhile fun c => !isBlank c) operands
    assemble stmt

/-- A whole listing, one line after the other (`30_encoding.md` R63). -/
def assembleListing (lines : List (List Char)) : Option (List HostInput) :=
  (lines.mapM assembleLine).map List.flatten

end Sys2Proof.Machine
end

