-- ==== Sys2Proof/Safety.lean ====
section
/-!
DEFINITION. What the statements are in terms of: the invariants of the machine, the end of a run, and the big-step
reading of a command (`10_state.md` R28): the beats it answers, the steps it takes and the FAULT it leaves.
-/

namespace Sys2Proof.Machine

/-- The 256 table beats of the forward (`inv = false`) or inverse table, ascending (`43_sbox.md` R106, R107). -/
def tableBeats (inv : Bool) : List Beat :=
  (List.range Config.tableLength).map fun k => .table (BitVec.ofNat 8 k) (tableEntry inv (BitVec.ofNat 8 k))

/-- The idle invariant (`10_state.md` R16): SEQ.RUN = 0 implies SEQ.INV = 0 and SEQ.IDX = 0. -/
abbrev State.IdleInv (s : State) : Prop :=
  s.seq.run = false → s.seq.inv = false ∧ s.seq.idx = 0

/-- Every beat of the trace is of one of the three kinds (`30_encoding.md` R61). -/
abbrev State.TraceWf (s : State) : Prop :=
  ∀ b ∈ s.trace, b.wf = true

/-- While a table runs with SEQ.IDX = k, the trace ends with exactly that table's first k beats
(`20_memory.md` R46, `70_reset_and_hazards.md` R142). -/
abbrev State.TableSoFar (s : State) : Prop :=
  s.seq.run = true → (tableBeats s.seq.inv).take s.seq.idx.toNat <:+ s.trace

/-- FAULT is set only if the trace shows an error beat (`60_exceptions.md` R120, R125). -/
abbrev State.FaultShown (s : State) : Prop :=
  s.fault = true → Beat.error ∈ s.trace

/-- The invariant of the machine. -/
structure State.Inv (s : State) : Prop where
  idle : s.IdleInv
  traceWf : s.TraceWf
  tableSoFar : s.TableSoFar
  faultShown : s.FaultShown

/-- `n` steps of the machine. -/
abbrev runSteps (n : Nat) (s : State) : Host.Outcome State Fault Refusal :=
  Sys2Proof.core.run n s

/-- The end of a run: every command word has been accepted and SEQ.RUN = 0 (`70_reset_and_hazards.md` R156). -/
def State.finished (s : State) : Bool :=
  s.words.isEmpty && !s.seq.run

/-- It is CORE's turn: the host does not fire RESET at this step. -/
abbrev State.CoreTurn (s : State) : Prop :=
  s.turns.head? ≠ some .reset

/-- No RESET is placed among the next `n` steps. -/
abbrev State.NoResetFor (s : State) (n : Nat) : Prop :=
  ∀ t ∈ s.turns.take n, t = .core

/-- The beats a command word answers when no RESET cuts it (`20_memory.md` R46), given FAULT at its ACCEPT. -/
def commandBeats (fault : Bool) (w : CmdWord) : List Beat :=
  match decode w with
  | .illegal _ => [.error]
  | .legal (.clmul x y) => [.ok (BitVec.ofNat 16 (clmul x.toNat y.toNat))]
  | .legal (.pmod z) => [.ok (BitVec.ofNat 16 (pmod z.toNat 0x11B (by decide)))]
  | .legal (.gfmul x y) => [.ok (zext16 (gfmul x y))]
  | .legal (.gfinv x) => [.ok (zext16 (gfinv x))]
  | .legal (.afff x) => [.ok (zext16 (affine aFwd x 0x63))]
  | .legal (.affi x) => [.ok (zext16 (affine aInv x 0x05))]
  | .legal (.sbox x) => [.ok (zext16 (sbox x))]
  | .legal (.isbox x) => [.ok (zext16 (invSbox x))]
  | .legal .gens => tableBeats false
  | .legal .geni => tableBeats true
  | .legal .stat => [.ok (if fault then 1 else 0)]

/-- FAULT after a command word, given FAULT at its ACCEPT (`10_state.md` R15). -/
def faultAfter (fault : Bool) (w : CmdWord) : Bool :=
  fault || !w.wf

/-- How many steps a command word takes: its ACCEPT, and 256 EMIT steps for a table (`10_state.md` R28). -/
def commandSteps (w : CmdWord) : Nat :=
  if w = 0x90000 ∨ w = 0xA0000 then 257 else 1

/-- The beats of a sequence of command words: the beats of each in command order (`20_memory.md` R46). -/
def sequenceBeats : Bool → List CmdWord → List Beat
  | _, [] => []
  | fault, w :: ws => commandBeats fault w ++ sequenceBeats (faultAfter fault w) ws

/-- FAULT after a sequence of command words. -/
def sequenceFault (fault : Bool) (ws : List CmdWord) : Bool :=
  ws.foldl faultAfter fault

/-- The `n`th power of `x` under `gfmul` (`41_field.md` R87 law 5). -/
def gfpow (x : Byte) : Nat → Byte
  | 0 => 1
  | n + 1 => gfmul (gfpow x n) x

/-- How many steps a sequence of command words takes. -/
def sequenceSteps (ws : List CmdWord) : Nat :=
  (ws.map commandSteps).sum

end Sys2Proof.Machine
end

