-- ==== Sys2Proof/Certificates/Slice0/Obligations.lean ====
section
/-!
DEFINITION. The statements about CORE. A statement whose docstring names a rule R formalises that rule; one that says
"the spec's inference" states what the spec marks as derived, and one that names a log entry states the model's choice.
-/

open Sys2Proof Sys2Proof.Machine

namespace Sys2Proof.Spec

/-- The table of inverses (`41_field.md` R88), row by row. -/
def inverseTable : List (List Byte) :=
  [[0x00, 0x01, 0x8d, 0xf6, 0xcb, 0x52, 0x7b, 0xd1, 0xe8, 0x4f, 0x29, 0xc0, 0xb0, 0xe1, 0xe5, 0xc7],
   [0x74, 0xb4, 0xaa, 0x4b, 0x99, 0x2b, 0x60, 0x5f, 0x58, 0x3f, 0xfd, 0xcc, 0xff, 0x40, 0xee, 0xb2],
   [0x3a, 0x6e, 0x5a, 0xf1, 0x55, 0x4d, 0xa8, 0xc9, 0xc1, 0x0a, 0x98, 0x15, 0x30, 0x44, 0xa2, 0xc2],
   [0x2c, 0x45, 0x92, 0x6c, 0xf3, 0x39, 0x66, 0x42, 0xf2, 0x35, 0x20, 0x6f, 0x77, 0xbb, 0x59, 0x19],
   [0x1d, 0xfe, 0x37, 0x67, 0x2d, 0x31, 0xf5, 0x69, 0xa7, 0x64, 0xab, 0x13, 0x54, 0x25, 0xe9, 0x09],
   [0xed, 0x5c, 0x05, 0xca, 0x4c, 0x24, 0x87, 0xbf, 0x18, 0x3e, 0x22, 0xf0, 0x51, 0xec, 0x61, 0x17],
   [0x16, 0x5e, 0xaf, 0xd3, 0x49, 0xa6, 0x36, 0x43, 0xf4, 0x47, 0x91, 0xdf, 0x33, 0x93, 0x21, 0x3b],
   [0x79, 0xb7, 0x97, 0x85, 0x10, 0xb5, 0xba, 0x3c, 0xb6, 0x70, 0xd0, 0x06, 0xa1, 0xfa, 0x81, 0x82],
   [0x83, 0x7e, 0x7f, 0x80, 0x96, 0x73, 0xbe, 0x56, 0x9b, 0x9e, 0x95, 0xd9, 0xf7, 0x02, 0xb9, 0xa4],
   [0xde, 0x6a, 0x32, 0x6d, 0xd8, 0x8a, 0x84, 0x72, 0x2a, 0x14, 0x9f, 0x88, 0xf9, 0xdc, 0x89, 0x9a],
   [0xfb, 0x7c, 0x2e, 0xc3, 0x8f, 0xb8, 0x65, 0x48, 0x26, 0xc8, 0x12, 0x4a, 0xce, 0xe7, 0xd2, 0x62],
   [0x0c, 0xe0, 0x1f, 0xef, 0x11, 0x75, 0x78, 0x71, 0xa5, 0x8e, 0x76, 0x3d, 0xbd, 0xbc, 0x86, 0x57],
   [0x0b, 0x28, 0x2f, 0xa3, 0xda, 0xd4, 0xe4, 0x0f, 0xa9, 0x27, 0x53, 0x04, 0x1b, 0xfc, 0xac, 0xe6],
   [0x7a, 0x07, 0xae, 0x63, 0xc5, 0xdb, 0xe2, 0xea, 0x94, 0x8b, 0xc4, 0xd5, 0x9d, 0xf8, 0x90, 0x6b],
   [0xb1, 0x0d, 0xd6, 0xeb, 0xc6, 0x0e, 0xcf, 0xad, 0x08, 0x4e, 0xd7, 0xe3, 0x5d, 0x50, 0x1e, 0xb3],
   [0x5b, 0x23, 0x38, 0x34, 0x68, 0x46, 0x03, 0x8c, 0xdd, 0x9c, 0x7d, 0xa0, 0xcd, 0x1a, 0x41, 0x1c]]

/-- The forward S-box (`43_sbox.md` R109), row by row. -/
def sboxTable : List (List Byte) :=
  [[0x63, 0x7c, 0x77, 0x7b, 0xf2, 0x6b, 0x6f, 0xc5, 0x30, 0x01, 0x67, 0x2b, 0xfe, 0xd7, 0xab, 0x76],
   [0xca, 0x82, 0xc9, 0x7d, 0xfa, 0x59, 0x47, 0xf0, 0xad, 0xd4, 0xa2, 0xaf, 0x9c, 0xa4, 0x72, 0xc0],
   [0xb7, 0xfd, 0x93, 0x26, 0x36, 0x3f, 0xf7, 0xcc, 0x34, 0xa5, 0xe5, 0xf1, 0x71, 0xd8, 0x31, 0x15],
   [0x04, 0xc7, 0x23, 0xc3, 0x18, 0x96, 0x05, 0x9a, 0x07, 0x12, 0x80, 0xe2, 0xeb, 0x27, 0xb2, 0x75],
   [0x09, 0x83, 0x2c, 0x1a, 0x1b, 0x6e, 0x5a, 0xa0, 0x52, 0x3b, 0xd6, 0xb3, 0x29, 0xe3, 0x2f, 0x84],
   [0x53, 0xd1, 0x00, 0xed, 0x20, 0xfc, 0xb1, 0x5b, 0x6a, 0xcb, 0xbe, 0x39, 0x4a, 0x4c, 0x58, 0xcf],
   [0xd0, 0xef, 0xaa, 0xfb, 0x43, 0x4d, 0x33, 0x85, 0x45, 0xf9, 0x02, 0x7f, 0x50, 0x3c, 0x9f, 0xa8],
   [0x51, 0xa3, 0x40, 0x8f, 0x92, 0x9d, 0x38, 0xf5, 0xbc, 0xb6, 0xda, 0x21, 0x10, 0xff, 0xf3, 0xd2],
   [0xcd, 0x0c, 0x13, 0xec, 0x5f, 0x97, 0x44, 0x17, 0xc4, 0xa7, 0x7e, 0x3d, 0x64, 0x5d, 0x19, 0x73],
   [0x60, 0x81, 0x4f, 0xdc, 0x22, 0x2a, 0x90, 0x88, 0x46, 0xee, 0xb8, 0x14, 0xde, 0x5e, 0x0b, 0xdb],
   [0xe0, 0x32, 0x3a, 0x0a, 0x49, 0x06, 0x24, 0x5c, 0xc2, 0xd3, 0xac, 0x62, 0x91, 0x95, 0xe4, 0x79],
   [0xe7, 0xc8, 0x37, 0x6d, 0x8d, 0xd5, 0x4e, 0xa9, 0x6c, 0x56, 0xf4, 0xea, 0x65, 0x7a, 0xae, 0x08],
   [0xba, 0x78, 0x25, 0x2e, 0x1c, 0xa6, 0xb4, 0xc6, 0xe8, 0xdd, 0x74, 0x1f, 0x4b, 0xbd, 0x8b, 0x8a],
   [0x70, 0x3e, 0xb5, 0x66, 0x48, 0x03, 0xf6, 0x0e, 0x61, 0x35, 0x57, 0xb9, 0x86, 0xc1, 0x1d, 0x9e],
   [0xe1, 0xf8, 0x98, 0x11, 0x69, 0xd9, 0x8e, 0x94, 0x9b, 0x1e, 0x87, 0xe9, 0xce, 0x55, 0x28, 0xdf],
   [0x8c, 0xa1, 0x89, 0x0d, 0xbf, 0xe6, 0x42, 0x68, 0x41, 0x99, 0x2d, 0x0f, 0xb0, 0x54, 0xbb, 0x16]]

/-- The inverse S-box (`43_sbox.md` R111), row by row. -/
def invSboxTable : List (List Byte) :=
  [[0x52, 0x09, 0x6a, 0xd5, 0x30, 0x36, 0xa5, 0x38, 0xbf, 0x40, 0xa3, 0x9e, 0x81, 0xf3, 0xd7, 0xfb],
   [0x7c, 0xe3, 0x39, 0x82, 0x9b, 0x2f, 0xff, 0x87, 0x34, 0x8e, 0x43, 0x44, 0xc4, 0xde, 0xe9, 0xcb],
   [0x54, 0x7b, 0x94, 0x32, 0xa6, 0xc2, 0x23, 0x3d, 0xee, 0x4c, 0x95, 0x0b, 0x42, 0xfa, 0xc3, 0x4e],
   [0x08, 0x2e, 0xa1, 0x66, 0x28, 0xd9, 0x24, 0xb2, 0x76, 0x5b, 0xa2, 0x49, 0x6d, 0x8b, 0xd1, 0x25],
   [0x72, 0xf8, 0xf6, 0x64, 0x86, 0x68, 0x98, 0x16, 0xd4, 0xa4, 0x5c, 0xcc, 0x5d, 0x65, 0xb6, 0x92],
   [0x6c, 0x70, 0x48, 0x50, 0xfd, 0xed, 0xb9, 0xda, 0x5e, 0x15, 0x46, 0x57, 0xa7, 0x8d, 0x9d, 0x84],
   [0x90, 0xd8, 0xab, 0x00, 0x8c, 0xbc, 0xd3, 0x0a, 0xf7, 0xe4, 0x58, 0x05, 0xb8, 0xb3, 0x45, 0x06],
   [0xd0, 0x2c, 0x1e, 0x8f, 0xca, 0x3f, 0x0f, 0x02, 0xc1, 0xaf, 0xbd, 0x03, 0x01, 0x13, 0x8a, 0x6b],
   [0x3a, 0x91, 0x11, 0x41, 0x4f, 0x67, 0xdc, 0xea, 0x97, 0xf2, 0xcf, 0xce, 0xf0, 0xb4, 0xe6, 0x73],
   [0x96, 0xac, 0x74, 0x22, 0xe7, 0xad, 0x35, 0x85, 0xe2, 0xf9, 0x37, 0xe8, 0x1c, 0x75, 0xdf, 0x6e],
   [0x47, 0xf1, 0x1a, 0x71, 0x1d, 0x29, 0xc5, 0x89, 0x6f, 0xb7, 0x62, 0x0e, 0xaa, 0x18, 0xbe, 0x1b],
   [0xfc, 0x56, 0x3e, 0x4b, 0xc6, 0xd2, 0x79, 0x20, 0x9a, 0xdb, 0xc0, 0xfe, 0x78, 0xcd, 0x5a, 0xf4],
   [0x1f, 0xdd, 0xa8, 0x33, 0x88, 0x07, 0xc7, 0x31, 0xb1, 0x12, 0x10, 0x59, 0x27, 0x80, 0xec, 0x5f],
   [0x60, 0x51, 0x7f, 0xa9, 0x19, 0xb5, 0x4a, 0x0d, 0x2d, 0xe5, 0x7a, 0x9f, 0x93, 0xc9, 0x9c, 0xef],
   [0xa0, 0xe0, 0x3b, 0x4d, 0xae, 0x2a, 0xf5, 0xb0, 0xc8, 0xeb, 0xbb, 0x3c, 0x83, 0x53, 0x99, 0x61],
   [0x17, 0x2b, 0x04, 0x7e, 0xba, 0x77, 0xd6, 0x26, 0xe1, 0x69, 0x14, 0x63, 0x55, 0x21, 0x0c, 0x7d]]

/-- The rows the source prints for the forward matrix, {i, ..., i+4} (`90_conflicts.md` C1); not CORE's. -/
def printedFwd : BitMatrix := #v[0x1F, 0x3E, 0x7C, 0xF8, 0xF1, 0xE3, 0xC7, 0x8F]

/-- The rows the source prints for the inverse matrix, {i-2, i+1, i+4} (`90_conflicts.md` C2); not CORE's. -/
def printedInv : BitMatrix := #v[0x52, 0xA4, 0x49, 0x92, 0x25, 0x4A, 0x94, 0x29]

/-- The word `(OP << 16) | (Y << 8) | X` written with numbers (`30_encoding.md` R51). -/
def fieldsWord (op : Nat) (y x : Byte) : CmdWord :=
  BitVec.ofNat 20 ((op <<< 16) ||| (y.toNat <<< 8) ||| x.toNat)

/-- What every word of a one-operand operation does: with Y = 0 it is the operation, else it raises IllegalCommand. -/
def oneOperandWords (op : Nat) (i : Byte → Instr) : Prop :=
  (∀ x, decode (fieldsWord op 0 x) = .legal (i x)) ∧
  ∀ x y s, y ≠ 0 → acceptWord (fieldsWord op y x) s =
    .next { s with fault := true, trace := s.trace ++ [⟨true, true, 0, 1⟩] }

/-- What every word of a no-operand operation does: with Z = 0 it is the operation, else it raises IllegalCommand. -/
def noOperandWords (op : Nat) (i : Instr) : Prop :=
  decode (fieldsWord op 0 0) = .legal i ∧
  ∀ x y s, ¬(y = 0 ∧ x = 0) → acceptWord (fieldsWord op y x) s =
    .next { s with fault := true, trace := s.trace ++ [⟨true, true, 0, 1⟩] }

/-- An operation that answers exactly one result beat with DATA = `v` and changes nothing else. -/
def answers (i : Instr) (v : Wide) : Prop :=
  ∀ s, exec i s = .next { s with trace := s.trace ++ [⟨false, true, 0, v⟩] }

/-- From every idle state that presents the word `w`, with no RESET placed in the next 257 steps, exactly the 256 beats
of the table are answered, and the state is then as before but for the word, the turns and the trace. -/
def emitsTable (w : CmdWord) (inv : Bool) : Prop :=
  ∀ s ws, s.seq = ⟨false, false, 0⟩ → s.words = w :: ws → s.NoResetFor 257 →
    runSteps 257 s = .next { s with trace := s.trace ++ tableBeats inv, words := ws, turns := s.turns.drop 257 }

/-- What disturbs a running table: no word is accepted while SEQ.RUN = 1, and RESET ends the table with no further
beat. -/
def onlyResetDisturbsTable : Prop :=
  (∀ (s : State) (w : CmdWord), s.seq.run = true → s.nextKind ≠ some (.accept w)) ∧
  ∀ (s : State) (ts : List Turn), s.seq.run = true → s.turns = .reset :: ts →
    step s = .next { s with seq := ⟨false, false, 0⟩, fault := false, turns := ts }

end Sys2Proof.Spec

open Sys2Proof.Spec

/-! ## Encoding -/

/-- `encode` then `decode` is the identity on operations, and `decode` then `encode` on legal words: the spec's
inference in `30_encoding.md` section 2 (the last sentence of R58). -/
def Obligations.DecodeEncodeInverse : Prop :=
  (∀ i : Instr, decode (encode i) = .legal i) ∧ ∀ (w : CmdWord) (i : Instr), decode w = .legal i → encode i = w

/-- R57 with the fields of R52: the verdict of `decode` on every word, by the value of OP. -/
def Obligations.DecodeEveryWord : Prop :=
  ∀ w : CmdWord,
    let op := w.toNat / 65536
    let y := BitVec.ofNat 8 (w.toNat / 256 % 256)
    let x := BitVec.ofNat 8 (w.toNat % 256)
    let z := BitVec.ofNat 16 (w.toNat % 65536)
    let ifYZero := fun i : Instr => if y = 0 then Decoded.legal i else .illegal .nonzeroY
    let ifZZero := fun i : Instr => if z = 0 then Decoded.legal i else .illegal .nonzeroZ
    (op = 0x1 → decode w = .legal (.clmul x y)) ∧
    (op = 0x2 → decode w = .legal (.pmod z)) ∧
    (op = 0x3 → decode w = .legal (.gfmul x y)) ∧
    (op = 0x4 → decode w = ifYZero (.gfinv x)) ∧
    (op = 0x5 → decode w = ifYZero (.afff x)) ∧
    (op = 0x6 → decode w = ifYZero (.affi x)) ∧
    (op = 0x7 → decode w = ifYZero (.sbox x)) ∧
    (op = 0x8 → decode w = ifYZero (.isbox x)) ∧
    (op = 0x9 → decode w = ifZZero .gens) ∧
    (op = 0xA → decode w = ifZZero .geni) ∧
    (op = 0xB → decode w = ifZZero .stat) ∧
    (op = 0x0 ∨ 0xC ≤ op → decode w = .illegal .reservedOp)

/-- R56: the rows of the opcode map, and that a word is an operation exactly if it selects that operation's row; at
most one row is selected. -/
def Obligations.OpcodeMapAgreesWithDecode : Prop :=
  (opcodeTable.map fun r => (r.mnemonic, r.op.toNat, r.format, r.matchBits.toNat, r.maskBits.toNat)) =
    [("CLMUL", 0x1, .f2, 0x10000, 0xF0000), ("PMOD", 0x2, .fz, 0x20000, 0xF0000),
     ("GFMUL", 0x3, .f2, 0x30000, 0xF0000), ("GFINV", 0x4, .f1, 0x40000, 0xFFF00),
     ("AFFF", 0x5, .f1, 0x50000, 0xFFF00), ("AFFI", 0x6, .f1, 0x60000, 0xFFF00),
     ("SBOX", 0x7, .f1, 0x70000, 0xFFF00), ("ISBOX", 0x8, .f1, 0x80000, 0xFFF00),
     ("GENS", 0x9, .f0, 0x90000, 0xFFFFF), ("GENI", 0xA, .f0, 0xA0000, 0xFFFFF),
     ("STAT", 0xB, .f0, 0xB0000, 0xFFFFF)] ∧
  ∀ w : CmdWord,
    (∀ i, decode w = .legal i → rowOf i ∈ opcodeTable ∧ w &&& (rowOf i).maskBits = (rowOf i).matchBits) ∧
    (∀ r ∈ opcodeTable, w &&& r.maskBits = r.matchBits → ∃ i, decode w = .legal i ∧ rowOf i = r) ∧
    (∀ r ∈ opcodeTable, ∀ r' ∈ opcodeTable,
      w &&& r.maskBits = r.matchBits → w &&& r'.maskBits = r'.matchBits → r = r')

/-- R53 and R54: which words are illegal and why, that accepting one raises IllegalCommand, and that formats F2 and FZ
have no must-be-zero bit. -/
def Obligations.ReservedAndNonzeroBitsIllegal : Prop :=
  ∀ w : CmdWord,
    let op := w.toNat / 65536
    (decode w = .illegal .reservedOp ↔ op = 0x0 ∨ op = 0xC ∨ op = 0xD ∨ op = 0xE ∨ op = 0xF) ∧
    (decode w = .illegal .nonzeroY ↔ 0x4 ≤ op ∧ op ≤ 0x8 ∧ w.toNat / 256 % 256 ≠ 0) ∧
    (decode w = .illegal .nonzeroZ ↔ 0x9 ≤ op ∧ op ≤ 0xB ∧ w.toNat % 65536 ≠ 0) ∧
    (1 ≤ op → op ≤ 3 → ∃ i, decode w = .legal i) ∧
    (w = 0 → decode w = .illegal .reservedOp) ∧
    ∀ c, decode w = .illegal c → ∀ s,
      acceptWord w s = .next { s with fault := true, trace := s.trace ++ [⟨true, true, 0, 1⟩] }

/-- The counts of legal and illegal words over all 2^20 words: the spec's inference in `30_encoding.md` section 2
(R58). -/
def Obligations.LegalWordCounts : Prop :=
  ((Finset.range (2 ^ 20)).filter fun n => (decodeLegal (BitVec.ofNat 20 n)).isSome = true).card = 197891 ∧
  ((Finset.range (2 ^ 20)).filter fun n => decode (BitVec.ofNat 20 n) = .illegal .reservedOp).card = 327680 ∧
  ((Finset.range (2 ^ 20)).filter fun n => decode (BitVec.ofNat 20 n) = .illegal .nonzeroY).card = 326400 ∧
  ((Finset.range (2 ^ 20)).filter fun n => decode (BitVec.ofNat 20 n) = .illegal .nonzeroZ).card = 196605

/-- Words written out by the spec, one for each operation and each cause: the spec's examples in `30_encoding.md`
section 5. -/
def Obligations.DecodeWorkedWords : Prop :=
  decode 0x18357 = .legal (.clmul 0x57 0x83) ∧ decode 0x22B79 = .legal (.pmod 0x2B79) ∧
  decode 0x38357 = .legal (.gfmul 0x57 0x83) ∧ decode 0x40053 = .legal (.gfinv 0x53) ∧
  decode 0x500CA = .legal (.afff 0xCA) ∧ decode 0x600ED = .legal (.affi 0xED) ∧
  decode 0x70053 = .legal (.sbox 0x53) ∧ decode 0x800ED = .legal (.isbox 0xED) ∧
  decode 0x90000 = .legal .gens ∧ decode 0xA0000 = .legal .geni ∧ decode 0xB0000 = .legal .stat ∧
  decode 0x00000 = .illegal .reservedOp ∧ decode 0x40153 = .illegal .nonzeroY ∧
  decode 0x90001 = .illegal .nonzeroZ ∧ decode 0xC0000 = .illegal .reservedOp

/-- R60: the layout of a beat's 26-bit word, which loses nothing, and that `emit` appends one beat. -/
def Obligations.BeatWordLayout : Prop :=
  (∀ b : Beat, b.toWord.toNat =
    (b.err.toNat <<< 25) ||| (b.last.toNat <<< 24) ||| (b.idx.toNat <<< 16) ||| b.data.toNat) ∧
  (∀ b : Beat, Beat.ofWord b.toWord = b) ∧
  (∀ w : BeatWord, (Beat.ofWord w).toWord = w) ∧
  ∀ (s : State) (b : Beat), s.emit b = { s with trace := s.trace ++ [b] }

/-- The 26-bit words of `OK v`, `T[i] v` and `ERR 1`: the spec's inference in `30_encoding.md` section 3 (R62). -/
def Obligations.BeatNotationWords : Prop :=
  (∀ v : Wide, (Beat.ok v).toWord.toNat = 0x1000000 ||| v.toNat) ∧
  (∀ i v : Byte, i ≠ 255 → (Beat.table i v).toWord.toNat = (i.toNat <<< 16) ||| v.toNat) ∧
  (∀ v : Byte, (Beat.table 255 v).toWord.toNat = 0x1FF0000 ||| v.toNat) ∧
  Beat.error.toWord.toNat = 0x3000001

/-! ## Steps -/

/-- When CORE is on turn, idle and presented a word that decodes, the step is `exec` of that operation on the state
whose word and turn have been taken (R26; the turn is log 1). -/
def Obligations.StepRunsDecodedInstruction : Prop :=
  ∀ (s : State) (w : CmdWord) (ws : List CmdWord) (i : Instr),
    s.CoreTurn → s.seq.run = false → s.words = w :: ws → decode w = .legal i →
      step s = exec i { s with words := ws, turns := s.turns.tail }

/-- R26: a word waits while SEQ.RUN = 1; when it is accepted, an illegal word raises IllegalCommand, GENS and GENI
start the sequencer without a beat, and any other operation emits exactly one result beat with its rule's result and
changes nothing of S (the turn is log 1). -/
def Obligations.AcceptStep : Prop :=
  (∀ s : State, s.CoreTurn → s.seq.run = true → ∃ t, step s = .next t ∧ t.words = s.words) ∧
  ∀ (s : State) (w : CmdWord) (ws : List CmdWord), s.CoreTurn → s.seq.run = false → s.words = w :: ws →
    (∀ c, decode w = .illegal c → step s =
      .next { s with fault := true, trace := s.trace ++ [⟨true, true, 0, 1⟩], words := ws, turns := s.turns.tail }) ∧
    (decode w = .legal .gens → step s =
      .next { s with seq := ⟨true, false, 0⟩, words := ws, turns := s.turns.tail }) ∧
    (decode w = .legal .geni → step s =
      .next { s with seq := ⟨true, true, 0⟩, words := ws, turns := s.turns.tail }) ∧
    (∀ i, decode w = .legal i → i ≠ .gens → i ≠ .geni →
      ∃ v, commandBeats s.fault w = [⟨false, true, 0, v⟩] ∧ step s =
        .next { s with trace := s.trace ++ [⟨false, true, 0, v⟩], words := ws, turns := s.turns.tail })

/-- R27: the EMIT step (the turn is log 1). -/
def Obligations.EmitStep : Prop :=
  ∀ s : State, s.CoreTurn → s.seq.run = true →
    let i := s.seq.idx
    let v := if s.seq.inv = false then sbox i else invSbox i
    step s = .next { s with
      trace := s.trace ++ [⟨false, decide (i = 255), i, BitVec.ofNat 16 v.toNat⟩]
      seq := if i = 255 then ⟨false, false, 0⟩ else ⟨true, s.seq.inv, BitVec.ofNat 8 (i.toNat + 1)⟩
      turns := s.turns.tail }

/-- RESET in every state: all four fields 0, no beat (R140); the trace stays and two in a row equal one (R141). That the
waiting words stay in the model's list is its choice (log 6) where R141 lets the host present a word again or drop it,
and that a RESET is a turn of the schedule is log 1. -/
def Obligations.ResetStep : Prop :=
  (∀ (s : State) (ts : List Turn), s.turns = .reset :: ts →
    step s = .next { s with seq := ⟨false, false, 0⟩, fault := false, turns := ts }) ∧
  ∀ (s : State) (ts : List Turn), s.turns = .reset :: .reset :: ts →
    runSteps 2 s = step { s with turns := .reset :: ts }

/-- RESET is always enabled, at most one of ACCEPT and EMIT is, and a step takes an enabled kind (R25). Which enabled
kind it takes is chosen by the turn, the model's choice (log 1). It takes none exactly when CORE is on turn, idle and
presented no word: the idle turn is the model's choice (log 2) for the idleness that the spec infers in
`60_exceptions.md` section 4 (R135). -/
def Obligations.StepTakesOneEnabledKind : Prop :=
  ∀ s : State,
    s.enabled .reset = true ∧
    (s.enabled .emit = true ↔ s.seq.run = true) ∧
    (∀ w, s.enabled (.accept w) = true ↔ s.seq.run = false ∧ ∃ ws, s.words = w :: ws) ∧
    (∀ w, ¬(s.enabled (.accept w) = true ∧ s.enabled .emit = true)) ∧
    (∀ k, s.nextKind = some k → s.enabled k = true ∧
      step s = State.take { s with turns := s.turns.tail } k) ∧
    (s.nextKind = none ↔ s.CoreTurn ∧ s.seq.run = false ∧ s.words = [])

/-- R61: a step appends no beat, or one of exactly three kinds: a result beat by ACCEPT of a single-result operation, a
table beat by EMIT, the error beat by ACCEPT of an illegal word. -/
def Obligations.ThreeKindsOfBeat : Prop :=
  ∀ s t : State, step s = .next t → t.trace = s.trace ∨ ∃ b, t.trace = s.trace ++ [b] ∧
    ((∃ w i v, s.nextKind = some (.accept w) ∧ decode w = .legal i ∧ i ≠ .gens ∧ i ≠ .geni ∧ b = ⟨false, true, 0, v⟩ ∧
        v.toNat < 2 ^ 15 ∧ ((∀ x y, i ≠ .clmul x y) → v.toNat < 2 ^ 8) ∧ (i = .stat → v.toNat < 2)) ∨
     (∃ v : Byte, s.nextKind = some .emit ∧
        b = ⟨false, decide (s.seq.idx = 255), s.seq.idx, BitVec.ofNat 16 v.toNat⟩) ∨
     (∃ w c, s.nextKind = some (.accept w) ∧ decode w = .illegal c ∧ b = ⟨true, true, 0, 0x0001⟩))

/-- An idle turn, with no word presented, changes nothing but the schedule: the model's choice (log 2) for the state of
which `60_exceptions.md` section 4 infers that it is idleness and loses nothing. -/
def Obligations.IdleTurnLosesNothing : Prop :=
  ∀ s : State, s.CoreTurn → s.seq.run = false → s.words = [] → step s = .next { s with turns := s.turns.tail }

/-- The word placed by `withFetchWord` is the next one run (the model's interface, log 4 and log 5). -/
def Obligations.PresentedWordRunsNext : Prop :=
  ∀ (s : State) (nbits w : Nat) (i : Instr), decodeTableWord nbits w = some i →
    step (s.withFetchWord nbits w) = exec i { s with seq := ⟨false, false, 0⟩ }

/-- No step stops the machine: the spec's inference in `60_exceptions.md` section 5 (R136), for any number of steps. -/
def Obligations.MachineNeverStops : Prop :=
  ∀ (n : Nat) (s : State), ∃ t, runSteps n s = .next t

/-! ## Invariants and whole-machine rules -/

/-- Every step keeps the invariant: the idle invariant (the spec's inference in `10_state.md` section 1), the kinds of
beat, the beats of a running table, and that a set FAULT has its error beat. -/
def Obligations.InvariantKeptByEveryStep : Prop :=
  ∀ s t : State, s.Inv → step s = .next t → t.Inv

/-- R30: the state after reset, and that it meets the invariant. -/
def Obligations.ResetStateMeetsInvariant : Prop :=
  State.reset.seq.run = false ∧ State.reset.seq.inv = false ∧ State.reset.seq.idx = 0 ∧ State.reset.fault = false ∧
  State.reset.trace = [] ∧ State.reset.Inv

/-- Beats are only appended, at most one a step, over any number of steps (`20_memory.md` section 4). -/
def Obligations.TraceOnlyGrows : Prop :=
  ∀ (n : Nat) (s t : State), runSteps n s = .next t →
    s.trace <+: t.trace ∧ t.trace.length ≤ s.trace.length + n

/-- Words are taken in order, none dropped or changed, and only by an ACCEPT (`20_memory.md` section 4). -/
def Obligations.WordsTakenInOrder : Prop :=
  (∀ s t : State, step s = .next t →
    (∃ w, s.nextKind = some (.accept w) ∧ s.words = w :: t.words) ∨
    ((∀ w, s.nextKind ≠ some (.accept w)) ∧ t.words = s.words)) ∧
  ∀ (n : Nat) (s t : State), runSteps n s = .next t → ∃ taken, s.words = taken ++ t.words ∧ taken.length ≤ n

/-- R19: FAULT is written by an illegal word and by RESET alone, its reset value is 0, and STAT alone reads it. -/
def Obligations.FaultFlagRule : Prop :=
  State.reset.fault = false ∧
  (∀ s t : State, step s = .next t → t.fault =
    match s.nextKind with
    | some .reset => false
    | some (.accept w) => s.fault || (decodeLegal w).isNone
    | _ => s.fault) ∧
  (∀ (i : Instr) (s : State) (f : Bool), i ≠ .stat →
    ∃ t, exec i s = .next t ∧ exec i { s with fault := f } = .next { t with fault := f }) ∧
  ∀ s t : State, s.seq.run = true → s.CoreTurn → step s = .next t →
    ∀ f, step { s with fault := f } = .next { t with fault := f }

/-- R122: no legal word sets FAULT or answers ERR = 1, the inverse of zero included. -/
def Obligations.LegalWordsNeverFault : Prop :=
  (∀ (i : Instr) (s : State), ∃ t bs, exec i s = .next t ∧ t.fault = s.fault ∧ t.trace = s.trace ++ bs ∧
    ∀ b ∈ bs, b.err = false) ∧
  answers (.gfinv 0) 0 ∧ answers (.sbox 0) 0x63 ∧ answers (.isbox 0x63) 0

/-- The beats of a word do not depend on the state it is accepted in, STAT apart, and a table beat depends on SEQ
alone: the spec's inference in `10_state.md` section 4. -/
def Obligations.BeatsIndependentOfHistory : Prop :=
  (∀ i : Instr, i ≠ .stat → ∃ bs, ∀ s : State, ∃ t, exec i s = .next t ∧ t.trace = s.trace ++ bs) ∧
  ∀ q : Seq, q.run = true → ∃ b, ∀ s : State, s.seq = q → s.CoreTurn →
    ∃ t, step s = .next t ∧ t.trace = s.trace ++ [b]

/-- A running table with SEQ.IDX = i ends after exactly 256 - i steps with the rest of its beats, if no RESET is placed
among them (`43_sbox.md` section 3, `70_reset_and_hazards.md` section 4). -/
def Obligations.RunningTableCompletes : Prop :=
  ∀ s : State, s.seq.run = true → s.NoResetFor (256 - s.seq.idx.toNat) →
    runSteps (256 - s.seq.idx.toNat) s = .next { s with
      seq := ⟨false, false, 0⟩
      trace := s.trace ++ (tableBeats s.seq.inv).drop s.seq.idx.toNat
      turns := s.turns.drop (256 - s.seq.idx.toNat) }

/-- RESET after k EMIT steps of a table, 0 ≤ k ≤ 255: the trace holds the table's first k beats, none of them LAST, and
CORE is in the reset state: the spec's inference in `70_reset_and_hazards.md` section 1 (R142). -/
def Obligations.ResetCutsTable : Prop :=
  ∀ (s : State) (inv : Bool) (k : Nat) (ts : List Turn), s.seq = ⟨true, inv, 0⟩ → k ≤ 255 →
    s.turns = List.replicate k .core ++ .reset :: ts →
    runSteps (k + 1) s = .next { s with
      seq := ⟨false, false, 0⟩, fault := false, trace := s.trace ++ (tableBeats inv).take k, turns := ts } ∧
    ∀ b ∈ (tableBeats inv).take k, b.last = false

/-- From an idle state, with no RESET placed, all presented words are accepted in `sequenceSteps` steps, the trace
grows by the beats of each command in command order, FAULT is set exactly by an illegal word among them, and the run is
finished (`20_memory.md` section 4, `70_reset_and_hazards.md` section 3). -/
def Obligations.CommandSequenceAnswered : Prop :=
  ∀ s : State, s.seq = ⟨false, false, 0⟩ → s.NoResetFor (sequenceSteps s.words) →
    ∃ t, runSteps (sequenceSteps s.words) s = .next t ∧ t.finished = true ∧
      t = { s with
        fault := s.fault || s.words.any fun w => (decodeLegal w).isNone
        trace := s.trace ++ sequenceBeats s.fault s.words
        words := []
        turns := s.turns.drop (sequenceSteps s.words) }

/-- GENALL is GENS then GENI, and its 512 beats are the forward table's and then the inverse table's
(`30_encoding.md` section 4; the spec's inference in `43_sbox.md` section 3). -/
def Obligations.GenallEmitsBothTables : Prop :=
  assemble .genall = some [.command 0x90000, .command 0xA0000] ∧
  ∀ s : State, s.seq = ⟨false, false, 0⟩ → s.words = [0x90000, 0xA0000] → s.NoResetFor 514 →
    runSteps 514 s = .next { s with
      trace := s.trace ++ tableBeats false ++ tableBeats true, words := [], turns := s.turns.drop 514 }

/-- The words of the assembler's statements and its operand ranges (`30_encoding.md` section 4). -/
def Obligations.AssemblerWordsAndRanges : Prop :=
  (∀ x y : Nat,
    assemble (.clmul x y) = (if x ≤ 255 ∧ y ≤ 255 then
      some [.command (BitVec.ofNat 20 (0x10000 ||| (y <<< 8) ||| x))] else none) ∧
    assemble (.gfmul x y) = (if x ≤ 255 ∧ y ≤ 255 then
      some [.command (BitVec.ofNat 20 (0x30000 ||| (y <<< 8) ||| x))] else none)) ∧
  (∀ z : Nat, assemble (.pmod z) =
    if z ≤ 65535 then some [.command (BitVec.ofNat 20 (0x20000 ||| z))] else none) ∧
  (∀ x : Nat,
    assemble (.gfinv x) = (if x ≤ 255 then some [.command (BitVec.ofNat 20 (0x40000 ||| x))] else none) ∧
    assemble (.afff x) = (if x ≤ 255 then some [.command (BitVec.ofNat 20 (0x50000 ||| x))] else none) ∧
    assemble (.affi x) = (if x ≤ 255 then some [.command (BitVec.ofNat 20 (0x60000 ||| x))] else none) ∧
    assemble (.sbox x) = (if x ≤ 255 then some [.command (BitVec.ofNat 20 (0x70000 ||| x))] else none) ∧
    assemble (.isbox x) = (if x ≤ 255 then some [.command (BitVec.ofNat 20 (0x80000 ||| x))] else none)) ∧
  (∀ n : Nat, assemble (.word n) = if n ≤ 0xFFFFF then some [.command (BitVec.ofNat 20 n)] else none) ∧
  assemble .gens = some [.command 0x90000] ∧ assemble .geni = some [.command 0xA0000] ∧
  assemble .stat = some [.command 0xB0000] ∧ assemble .reset = some [.reset]

/-! ## Polynomials over GF(2) -/

/-- R70: the multiplier's loop, and that bit k of the result is the XOR of the products of the bits i and j of the
operands with i + j = k. -/
def Obligations.ClmulIsPolynomialProduct : Prop :=
  ∀ x y : Nat,
    clmul x y = (List.range (bitlen x)).foldl (fun acc i => if x.testBit i then acc ^^^ (y <<< i) else acc) 0 ∧
    ∀ k, (clmul x y).testBit k =
      (((List.range (k + 1)).countP fun i => x.testBit i && y.testBit (k - i)) % 2 == 1)

/-- The laws of `clmul`: the spec's inference in `40_polynomial.md` section 1 (R72). -/
def Obligations.ClmulLaws : Prop :=
  (∀ x y, clmul x y = clmul y x) ∧
  (∀ x y z, clmul x (y ^^^ z) = clmul x y ^^^ clmul x z) ∧
  (∀ x y z, clmul (clmul x y) z = clmul x (clmul y z)) ∧
  (∀ x, clmul x 0 = 0 ∧ clmul x 1 = x) ∧
  (∀ x k, clmul x (2 ^ k) = x <<< k) ∧
  (∀ x y, 0 < x → 0 < y → bitlen (clmul x y) = bitlen x + bitlen y - 1) ∧
  clmul 3 3 = 5

/-- R73: the reducer's loop, and its contract: the result is shorter than the modulus and differs from the dividend by
a multiple of the modulus. -/
def Obligations.PmodContract : Prop :=
  ∀ (x m : Nat) (h : 0 < m),
    pmod x m h = (if bitlen m ≤ bitlen x then pmod (x ^^^ (m <<< (bitlen x - bitlen m))) m h else x) ∧
    (bitlen m ≤ bitlen x → bitlen (x ^^^ (m <<< (bitlen x - bitlen m))) < bitlen x) ∧
    bitlen (pmod x m h) < bitlen m ∧
    ∃ q, x ^^^ pmod x m h = clmul q m

/-- The laws of `pmod` and the uniqueness of the remainder: the spec's inferences in `40_polynomial.md` section 2
(R75, the last sentences of R73). -/
def Obligations.PmodLaws : Prop :=
  ∀ (m : Nat) (h : 0 < m),
    (∀ x, pmod x m h < 2 ^ (bitlen m - 1)) ∧
    (∀ x, bitlen x < bitlen m → pmod x m h = x) ∧
    (∀ x, pmod (pmod x m h) m h = pmod x m h) ∧
    (∀ x y, pmod (x ^^^ y) m h = pmod x m h ^^^ pmod y m h) ∧
    (∀ q, pmod (clmul q m) m h = 0) ∧
    (m = 1 → ∀ x, pmod x m h = 0) ∧
    ∀ x r q, bitlen r < bitlen m → x ^^^ r = clmul q m → r = pmod x m h

/-- The bound on the reducer's iterations: the spec's inferences in `40_polynomial.md` section 2 (R74, R75 law 6). -/
def Obligations.PmodIterationBound : Prop :=
  (∀ (x m : Nat) (h : 0 < m), pmodSteps x m h ≤ bitlen x + 1 - bitlen m) ∧
  (∀ z : Wide, pmodSteps z.toNat 0x11B (by decide) ≤ 8 ∧
    (z.toNat < 2 ^ 15 → pmodSteps z.toNat 0x11B (by decide) ≤ 7)) ∧
  pmodSteps 0xF600 0x11B (by decide) = 8

/-! ## The field GF(2^8) -/

/-- R80: field multiplication is the reduced product, and the 8-bit result drops nothing. -/
def Obligations.GfmulIsReducedProduct : Prop :=
  ∀ x y : Byte, (gfmul x y).toNat = pmod (clmul x.toNat y.toNat) 0x11B (by decide) ∧
    clmul x.toNat y.toNat < 2 ^ 15

/-- The laws of `gfmul`: those the source states and the spec's inferences, `41_field.md` section 1 (R82). -/
def Obligations.GfmulLaws : Prop :=
  (∀ x y, gfmul x y = gfmul y x) ∧
  (∀ x y z, gfmul (gfmul x y) z = gfmul x (gfmul y z)) ∧
  (∀ x y z, gfmul x (y ^^^ z) = gfmul x y ^^^ gfmul x z) ∧
  (∀ x, gfmul x 1 = x ∧ gfmul x 0 = 0) ∧
  (∀ x y, gfmul x y = 0 → x = 0 ∨ y = 0) ∧
  ∀ v : Byte, gfmul v 2 = (v <<< 1) ^^^ (if v.getLsbD 7 then 0x1B else 0x00)

/-- R84 and R83: the inverse of 0 is 0 and an ordinary result; of every other element it is the one element of 1 to 255
whose product with it is 1. -/
def Obligations.GfinvIsTheInverse : Prop :=
  gfinv 0 = 0 ∧ answers (.gfinv 0) 0x0000 ∧
  ∀ x : Byte, x ≠ 0 → 1 ≤ (gfinv x).toNat ∧ gfmul x (gfinv x) = 1 ∧ ∀ y : Byte, gfmul x y = 1 → y = gfinv x

/-- The laws of `gfinv`: the spec's inferences in `41_field.md` section 2 (R87). -/
def Obligations.GfinvLaws : Prop :=
  (∀ x, x ≠ 0 → gfmul x (gfinv x) = 1) ∧
  (∀ x, gfinv (gfinv x) = x) ∧
  Function.Bijective gfinv ∧
  (∀ x, x ≠ 0 ↔ gfinv x ≠ 0) ∧
  (∀ x, gfinv x = x ↔ x = 0 ∨ x = 1) ∧
  ∀ x, gfinv x = gfpow x 254

/-! ## The affine transform -/

/-- R90: bit i of the result, for every matrix and constant, and the packed form. -/
def Obligations.AffineBitwise : Prop :=
  (∀ (r : BitMatrix) (x b : Byte) (i : Fin 8),
    (affine r x b).getLsbD i = (parity ((r.get i).toNat &&& x.toNat) ^^ b.getLsbD i) ∧
    parity ((r.get i).toNat &&& x.toNat) =
      (((List.range 8).countP fun j => (r.get i).getLsbD j && x.getLsbD j) % 2 == 1)) ∧
  ∀ (p : BitVec 64) (x b : Byte) (i : Fin 8),
    (affinePacked p x b).getLsbD i =
      (parity ((p.toNat / 2 ^ (8 * i.val) % 256) &&& x.toNat) ^^ b.getLsbD i)

/-- The laws of `affine`: the spec's inferences in `42_affine.md` section 1 (R91). -/
def Obligations.AffineLaws : Prop :=
  (∀ (r : BitMatrix) (b : Byte), affine r 0 b = b) ∧
  (∀ (r : BitMatrix) (x b : Byte), affine r x b = affine r x 0 ^^^ b) ∧
  (∀ (r : BitMatrix) (x y : Byte), affine r (x ^^^ y) 0 = affine r x 0 ^^^ affine r y 0) ∧
  (∀ (r : BitMatrix) (i j : Fin 8), (affine r (1 <<< j.val) 0).getLsbD i = (r.get i).getLsbD j) ∧
  ((List.range 8).map fun j => affine aFwd (1 <<< j) 0) = [0x1F, 0x3E, 0x7C, 0xF8, 0xF1, 0xE3, 0xC7, 0x8F] ∧
  ((List.range 8).map fun j => affine aInv (1 <<< j) 0) = [0x4A, 0x94, 0x29, 0x52, 0xA4, 0x49, 0x92, 0x25] ∧
  (∀ x, affine aFwd x 0x63 = x ^^^ rotl8 x 1 ^^^ rotl8 x 2 ^^^ rotl8 x 3 ^^^ rotl8 x 4 ^^^ 0x63) ∧
  ∀ x, affine aInv x 0x05 = rotl8 x 1 ^^^ rotl8 x 3 ^^^ rotl8 x 6 ^^^ 0x05

/-- AFFF and AFFI undo each other, A_INV is the inverse matrix of A_FWD, and for any matrix and constant in the place of
A_INV and 0x05 the round trip of the S-boxes holds exactly if the pair undoes AFFF: the spec's inference in
`42_affine.md` section 2 (R95). -/
def Obligations.AffineTransformsInverse : Prop :=
  (∀ x, affine aInv (affine aFwd x 0x63) 0x05 = x) ∧
  (∀ x, affine aFwd (affine aInv x 0x05) 0x63 = x) ∧
  (∀ x, matVec aInv (matVec aFwd x) = x ∧ matVec aFwd (matVec aInv x) = x) ∧
  affine aInv 0x63 0 = 0x05 ∧
  ∀ (r : BitMatrix) (b : Byte),
    (∀ x, gfinv (affine r (sbox x) b) = x) ↔ ∀ x, affine r (affine aFwd x 0x63) b = x

/-- The closed forms and the packed literals of the two matrices: the spec's inference in `10_state.md` section 2
(R22, R23). -/
def Obligations.PackedMatricesAgree : Prop :=
  (∀ i : Fin 8, aFwd.get i = rotl8 0xF1 i ∧ aInv.get i = rotl8 0xA4 i) ∧
  aFwdPacked.toNat = 0xF87C3E1F8FC7E3F1 ∧ aInvPacked.toNat = 0x5229944A259249A4 ∧
  ∀ x b : Byte, affinePacked aFwdPacked x b = affine aFwd x b ∧ affinePacked aInvPacked x b = affine aInv x b

/-! ## The S-boxes -/

/-- R102: the forward S-box is a permutation and gives the source's four vectors, three of which
the row sets printed in the source do not give. -/
def Obligations.SboxPermutation : Prop :=
  Function.Bijective sbox ∧ (∀ v : Byte, ∃! x, sbox x = v) ∧
  sbox 0x00 = 0x63 ∧ sbox 0x01 = 0x7C ∧ sbox 0x53 = 0xED ∧ sbox 0xFF = 0x16 ∧
  affine printedFwd (gfinv 0x01) 0x63 = 0x92 ∧ affine printedFwd (gfinv 0x53) 0x63 = 0x8B ∧
  affine printedFwd (gfinv 0xFF) 0x63 = 0x34

/-- R105: the inverse S-box undoes the forward one, both ways, and gives the source's three vectors, which the row
sets printed in the source do not give. -/
def Obligations.InvSboxIsInverse : Prop :=
  (∀ x, invSbox (sbox x) = x) ∧ (∀ x, sbox (invSbox x) = x) ∧
  Function.Bijective invSbox ∧ (∀ x, invSbox x ≠ x) ∧
  invSbox 0x63 = 0x00 ∧ invSbox 0x7C = 0x01 ∧ invSbox 0xED = 0x53 ∧
  gfinv (affine printedInv 0x63 0x05) = 0xC7 ∧ gfinv (affine printedInv 0x7C 0x05) = 0xE1 ∧
  gfinv (affine printedInv 0xED 0x05) = 0x9F

/-- The three complete tables: the spec's evaluations in `41_field.md` section 2 and `43_sbox.md` section 4 (R88, R109,
R111). -/
def Obligations.CompleteTables : Prop :=
  ∀ r c : Fin 16,
    (inverseTable[r.val]?.bind (·[c.val]?)) = some (gfinv (BitVec.ofNat 8 (16 * r.val + c.val))) ∧
    (sboxTable[r.val]?.bind (·[c.val]?)) = some (sbox (BitVec.ofNat 8 (16 * r.val + c.val))) ∧
    (invSboxTable[r.val]?.bind (·[c.val]?)) = some (invSbox (BitVec.ofNat 8 (16 * r.val + c.val)))

/-- R108: the entry of index 16r + c stands at row r, column c, and ascending order is row-major order. -/
def Obligations.TablePositionsRowMajor : Prop :=
  (∀ r c : Fin 16, tablePosition (BitVec.ofNat 8 (16 * r.val + c.val)) = (r.val, c.val)) ∧
  (∀ i : Byte, i.toNat = 16 * (tablePosition i).1 + (tablePosition i).2) ∧
  ∀ i j : Byte, i.toNat < j.toNat ↔ (tablePosition i).1 < (tablePosition j).1 ∨
    ((tablePosition i).1 = (tablePosition j).1 ∧ (tablePosition i).2 < (tablePosition j).2)

/-! ## The eleven operations, each as its rule gives it -/

/-- R71. -/
def Obligations.ClmulOperation : Prop :=
  (∀ x y : Byte, decode (fieldsWord 0x1 y x) = .legal (.clmul x y)) ∧
  (∀ w : CmdWord, w &&& 0xF0000 = 0x10000 → ∃ x y, decode w = .legal (.clmul x y)) ∧
  (∀ x y : Byte, answers (.clmul x y) (BitVec.ofNat 16 (clmul x.toNat y.toNat)) ∧ clmul x.toNat y.toNat < 2 ^ 15) ∧
  (∀ x : Byte, clmul x.toNat 0 = 0 ∧ clmul 0 x.toNat = 0 ∧ clmul 1 x.toNat = x.toNat ∧ clmul x.toNat 1 = x.toNat) ∧
  (∀ (x : Byte) (k : Nat), (clmul x.toNat x.toNat).testBit k = (k % 2 == 0 && x.getLsbD (k / 2))) ∧
  (∀ x y : Byte, bitlen (clmul x.toNat y.toNat) = 15 ↔ x.getLsbD 7 = true ∧ y.getLsbD 7 = true) ∧
  (∀ x y : Byte, clmul x.toNat y.toNat = clmul y.toNat x.toNat) ∧
  answers (.clmul 0xFF 0xFF) 0x5555 ∧ answers (.clmul 0x03 0x03) 0x0005 ∧ answers (.clmul 0x80 0x80) 0x4000 ∧
  decode 0x18357 = .legal (.clmul 0x57 0x83) ∧ answers (.clmul 0x57 0x83) 0x2B79

/-- R74 (its bound on the loop, the spec's inference, is `PmodIterationBound`). -/
def Obligations.PmodOperation : Prop :=
  (∀ z : Wide, decode (BitVec.ofNat 20 (0x20000 ||| z.toNat)) = .legal (.pmod z)) ∧
  (∀ w : CmdWord, w &&& 0xF0000 = 0x20000 → ∃ z, decode w = .legal (.pmod z)) ∧
  (∀ z : Wide, answers (.pmod z) (BitVec.ofNat 16 (pmod z.toNat 0x11B (by decide))) ∧
    pmod z.toNat 0x11B (by decide) < 2 ^ 8) ∧
  (∀ z : Wide, z.toNat < 0x100 → answers (.pmod z) z) ∧
  answers (.pmod 0x100) 0x1B ∧ answers (.pmod 0x11B) 0 ∧ answers (.pmod 0x11A) 1 ∧ answers (.pmod 0x8000) 0x2F ∧
  answers (.pmod 0xFFFF) 0x35 ∧ decode 0x22B79 = .legal (.pmod 0x2B79) ∧ answers (.pmod 0x2B79) 0x00C1

/-- R81. -/
def Obligations.GfmulOperation : Prop :=
  (∀ x y : Byte, decode (fieldsWord 0x3 y x) = .legal (.gfmul x y)) ∧
  (∀ w : CmdWord, w &&& 0xF0000 = 0x30000 → ∃ x y, decode w = .legal (.gfmul x y)) ∧
  (∀ x y : Byte, answers (.gfmul x y) (BitVec.ofNat 16 (gfmul x y).toNat)) ∧
  (∀ x : Byte, gfmul x 0 = 0 ∧ gfmul 0 x = 0 ∧ gfmul 1 x = x ∧ gfmul x 1 = x) ∧
  (∀ x : Byte, x ≠ 0 → gfmul x (gfinv x) = 1) ∧
  (∀ x y : Byte, gfmul x y = gfmul y x) ∧
  (∀ (x y : Byte) (s : State),
    exec (.gfmul x y) s = exec (.pmod (BitVec.ofNat 16 (clmul x.toNat y.toNat))) s) ∧
  decode 0x38357 = .legal (.gfmul 0x57 0x83) ∧ answers (.gfmul 0x57 0x83) 0x00C1

/-- R85. -/
def Obligations.GfinvOperation : Prop :=
  oneOperandWords 0x4 .gfinv ∧
  (∀ x : Byte, answers (.gfinv x) (BitVec.ofNat 16 (gfinv x).toNat)) ∧
  gfinv 0 = 0 ∧ gfinv 1 = 1 ∧ (∀ x, gfinv x = x → x = 0 ∨ x = 1) ∧ (∀ x, gfinv (gfinv x) = x) ∧
  decode 0x40053 = .legal (.gfinv 0x53) ∧ answers (.gfinv 0x53) 0x00CA ∧
  ∀ y : Byte, y.toNat < 0xCA → gfmul 0x53 y ≠ 1

/-- R93. -/
def Obligations.AfffOperation : Prop :=
  oneOperandWords 0x5 .afff ∧
  (∀ x : Byte, answers (.afff x) (BitVec.ofNat 16 (affine aFwd x 0x63).toNat)) ∧
  answers (.afff 0x00) 0x63 ∧ answers (.afff 0x01) 0x7C ∧ answers (.afff 0xFF) 0x9C ∧ answers (.afff 0x05) 0x00 ∧
  (∀ x, affine aFwd x 0x63 ≠ x) ∧ Function.Bijective (fun x => affine aFwd x 0x63) ∧
  decode 0x500CA = .legal (.afff 0xCA) ∧ answers (.afff 0xCA) 0x00ED

/-- R94. -/
def Obligations.AffiOperation : Prop :=
  oneOperandWords 0x6 .affi ∧
  (∀ x : Byte, answers (.affi x) (BitVec.ofNat 16 (affine aInv x 0x05).toNat)) ∧
  answers (.affi 0x00) 0x05 ∧ answers (.affi 0x63) 0x00 ∧ answers (.affi 0x7C) 0x01 ∧ answers (.affi 0xFF) 0xFA ∧
  (∀ x, affine aInv x 0x05 ≠ x) ∧
  decode 0x600ED = .legal (.affi 0xED) ∧ answers (.affi 0xED) 0x00CA

/-- R101. -/
def Obligations.SboxOperation : Prop :=
  oneOperandWords 0x7 .sbox ∧
  (∀ x : Byte, answers (.sbox x) (BitVec.ofNat 16 (sbox x).toNat)) ∧
  answers (.sbox 0x00) 0x63 ∧ answers (.sbox 0x01) 0x7C ∧ answers (.sbox 0xFF) 0x16 ∧ answers (.sbox 0x52) 0x00 ∧
  (∀ x, sbox x ≠ x) ∧ (∀ (x : Byte) (s : State), exec (.sbox x) s = exec (.afff (gfinv x)) s) ∧
  decode 0x70053 = .legal (.sbox 0x53) ∧ answers (.sbox 0x53) 0x00ED

/-- R104. -/
def Obligations.IsboxOperation : Prop :=
  oneOperandWords 0x8 .isbox ∧
  (∀ x : Byte, answers (.isbox x) (BitVec.ofNat 16 (invSbox x).toNat)) ∧
  answers (.isbox 0x63) 0x00 ∧ answers (.isbox 0x00) 0x52 ∧ answers (.isbox 0x7C) 0x01 ∧ answers (.isbox 0x16) 0xFF ∧
  (∀ x, invSbox x ≠ x) ∧
  (∀ (x : Byte) (s : State), exec (.isbox x) s = exec (.gfinv (affine aInv x 0x05)) s) ∧
  decode 0x800ED = .legal (.isbox 0xED) ∧ answers (.isbox 0xED) 0x0053

/-- R106. -/
def Obligations.GensOperation : Prop :=
  noOperandWords 0x9 .gens ∧
  (∀ s : State, exec .gens s = .next { s with seq := ⟨true, false, 0⟩ }) ∧
  (∀ i : Byte, (tableBeats false)[i.toNat]? = some ⟨false, decide (i = 255), i, BitVec.ofNat 16 (sbox i).toNat⟩) ∧
  (tableBeats false).length = 256 ∧
  emitsTable 0x90000 false ∧ onlyResetDisturbsTable ∧
  ((tableBeats false).map fun b => b.toWord.toNat).take 3 = [0x0000063, 0x001007C, 0x0020077] ∧
  ((tableBeats false).map fun b => b.toWord.toNat).getLast? = some 0x1FF0016

/-- R107. -/
def Obligations.GeniOperation : Prop :=
  noOperandWords 0xA .geni ∧
  (∀ s : State, exec .geni s = .next { s with seq := ⟨true, true, 0⟩ }) ∧
  (∀ i : Byte, (tableBeats true)[i.toNat]? = some ⟨false, decide (i = 255), i, BitVec.ofNat 16 (invSbox i).toNat⟩) ∧
  (tableBeats true).length = 256 ∧
  emitsTable 0xA0000 true ∧ onlyResetDisturbsTable ∧
  ((tableBeats true).map fun b => b.toWord.toNat).take 3 = [0x0000052, 0x0010009, 0x002006A] ∧
  ((tableBeats true).map fun b => b.toWord.toNat).getLast? = some 0x1FF007D

/-- R115 with R20: STAT answers STATUS and clears nothing, is accepted only when SEQ.RUN = 0, and answers 1 from an
illegal word on until a RESET. -/
def Obligations.StatOperation : Prop :=
  noOperandWords 0xB .stat ∧
  (∀ s : State, exec .stat s =
    .next { s with trace := s.trace ++ [⟨false, true, 0, if s.fault then 0x0001 else 0x0000⟩] }) ∧
  (∀ s : State, s.nextKind = some (.accept 0xB0000) → s.seq.run = false) ∧
  (∀ (s : State), s.resetCore.fault = false) ∧
  (∀ (n : Nat) (s t : State), s.raiseIllegal.NoResetFor n → runSteps n s.raiseIllegal = .next t → t.fault = true) ∧
  ∃ t, runSteps 3 { State.reset with words := [0xB0000, 0x00000, 0xB0000] } = .next t ∧
    (t.trace.map fun b => b.toWord.toNat) = [0x1000000, 0x3000001, 0x1000001]
end

