-- ==== Sys2Proof/Laws/Bits.lean ====
section
/-!
SUPPORT. What bit-length, parity and zero extension say in terms of order and arithmetic (`00_scope.md` R8, R9).
-/

namespace Sys2Proof.Machine

@[simp] theorem bitlen_zero : bitlen 0 = 0 := rfl

/-- `bitlen` bounds a value from above exactly as a power of two does. -/
theorem bitlen_le_iff {v n : Nat} : bitlen v ≤ n ↔ v < 2 ^ n := by
  unfold bitlen
  split
  · simp_all
  · rename_i h
    rw [Nat.succ_le_iff, Nat.log2_lt h]

theorem lt_two_pow_bitlen (v : Nat) : v < 2 ^ bitlen v :=
  bitlen_le_iff.mp (Nat.le_refl _)

/-- The unique `n` with `2^(n-1) ≤ v < 2^n` (`00_scope.md` R8). -/
theorem bitlen_eq_succ_iff {v n : Nat} : bitlen v = n + 1 ↔ 2 ^ n ≤ v ∧ v < 2 ^ (n + 1) := by
  rw [← bitlen_le_iff, ← Nat.not_lt, ← bitlen_le_iff]
  omega

theorem bitlen_pos_iff {v : Nat} : 0 < bitlen v ↔ 0 < v := by
  unfold bitlen
  split <;> omega

/-- Above its bit-length a value has no bit. -/
theorem testBit_of_bitlen_le {v i : Nat} (h : bitlen v ≤ i) : v.testBit i = false :=
  Nat.testBit_lt_two_pow (bitlen_le_iff.mp h)

/-- The highest bit of a value is set. -/
theorem testBit_bitlen_pred {v : Nat} (h : 0 < v) : v.testBit (bitlen v - 1) = true := by
  obtain ⟨n, hn⟩ : ∃ n, bitlen v = n + 1 := ⟨bitlen v - 1, by have := bitlen_pos_iff.mpr h; omega⟩
  obtain ⟨h₁, h₂⟩ := bitlen_eq_succ_iff.mp hn
  rw [hn, Nat.add_sub_cancel, Nat.testBit_eq_decide_div_mod_eq]
  have : v / 2 ^ n = 1 := by
    rw [Nat.div_eq_iff (Nat.two_pow_pos n)]
    have := Nat.pow_succ 2 n
    omega
  simp [this]

/-- A value with no bit from `n` on has bit-length at most `n`. -/
theorem bitlen_le_of_testBit {v n : Nat} (h : ∀ i, n ≤ i → v.testBit i = false) : bitlen v ≤ n :=
  bitlen_le_iff.mpr (Nat.lt_pow_two_of_testBit v h)

/-- Counting more bits than a value has changes nothing. -/
theorem popcountBelow_of_bitlen_le {v n : Nat} (h : bitlen v ≤ n) : popcountBelow v n = popcount v := by
  induction n with
  | zero => rw [popcount, Nat.le_zero.mp h]
  | succ n ih =>
    rcases Nat.lt_or_ge n (bitlen v) with hn | hn
    · rw [popcount, show bitlen v = n + 1 by omega]
    · simp [popcountBelow, ih hn, testBit_of_bitlen_le hn]

/-- The parity of a byte counts its eight bits. -/
theorem parity_byte (v : Byte) : parity v.toNat = (popcountBelow v.toNat 8 % 2 == 1) := by
  rw [parity, popcountBelow_of_bitlen_le (bitlen_le_iff.mpr v.isLt)]

@[simp] theorem zext16_toNat (v : Byte) : (zext16 v).toNat = v.toNat := by
  have := v.isLt
  simp [zext16]
  omega

/-- Zero extension of a byte, as the number it is. -/
theorem zext16_eq_ofNat (v : Byte) : zext16 v = BitVec.ofNat 16 v.toNat := by
  apply BitVec.eq_of_toNat_eq
  have := v.isLt
  simp
  omega

end Sys2Proof.Machine
end

