-- ==== Sys2Proof/Laws/Encoding.lean ====
section
/-!
SUPPORT. The fields of a word built from fields, a word built from its fields (`30_encoding.md` R51, R52), and the
numbers they stand for.
-/

namespace Sys2Proof.Machine

/-- The number of a word built from OP, Y and X. -/
theorem wordOfFields_toNat (op : BitVec 4) (y x : Byte) :
    (wordOfFields op y x).toNat = op.toNat * 65536 + y.toNat * 256 + x.toNat := by
  have ho := op.isLt
  have hy := y.isLt
  have hx := x.isLt
  have h₁ : (op.toNat <<< 16 ||| y.toNat <<< 8) = op.toNat <<< 16 + y.toNat <<< 8 :=
    (Nat.shiftLeft_add_eq_or_of_lt (by rw [Nat.shiftLeft_eq]; omega) _).symm
  have h₂ : op.toNat <<< 16 + y.toNat <<< 8 = (op.toNat * 256 + y.toNat) <<< 8 := by
    simp only [Nat.shiftLeft_eq]; omega
  have h₃ : ((op.toNat * 256 + y.toNat) <<< 8 ||| x.toNat) = (op.toNat * 256 + y.toNat) <<< 8 + x.toNat :=
    (Nat.shiftLeft_add_eq_or_of_lt hx _).symm
  have h₄ : op.toNat <<< 16 % 2 ^ 20 = op.toNat <<< 16 := Nat.mod_eq_of_lt (by rw [Nat.shiftLeft_eq]; omega)
  have h₅ : y.toNat <<< 8 % 2 ^ 20 = y.toNat <<< 8 := Nat.mod_eq_of_lt (by rw [Nat.shiftLeft_eq]; omega)
  have m₁ : op.toNat % 2 ^ 20 = op.toNat := Nat.mod_eq_of_lt (by omega)
  have m₂ : y.toNat % 2 ^ 20 = y.toNat := Nat.mod_eq_of_lt (by omega)
  have m₃ : x.toNat % 2 ^ 20 = x.toNat := Nat.mod_eq_of_lt (by omega)
  simp only [wordOfFields, BitVec.toNat_or, BitVec.toNat_shiftLeft, BitVec.toNat_setWidth, m₁, m₂, m₃, h₄, h₅]
  rw [h₁, h₂, h₃, Nat.shiftLeft_eq]
  omega

/-- The number of a word built from OP and Z. -/
theorem wordOfWide_toNat (op : BitVec 4) (z : Wide) : (wordOfWide op z).toNat = op.toNat * 65536 + z.toNat := by
  have ho := op.isLt
  have hz := z.isLt
  have h₁ : (op.toNat <<< 16 ||| z.toNat) = op.toNat <<< 16 + z.toNat := (Nat.shiftLeft_add_eq_or_of_lt hz _).symm
  have h₄ : op.toNat <<< 16 % 2 ^ 20 = op.toNat <<< 16 := Nat.mod_eq_of_lt (by rw [Nat.shiftLeft_eq]; omega)
  have m₁ : op.toNat % 2 ^ 20 = op.toNat := Nat.mod_eq_of_lt (by omega)
  have m₂ : z.toNat % 2 ^ 20 = z.toNat := Nat.mod_eq_of_lt (by omega)
  simp only [wordOfWide, BitVec.toNat_or, BitVec.toNat_shiftLeft, BitVec.toNat_setWidth, m₁, m₂, h₄]
  rw [h₁, Nat.shiftLeft_eq]

/-- OP as a number. -/
theorem opField_toNat (w : CmdWord) : (opField w).toNat = w.toNat / 65536 := by
  have := w.isLt
  simp only [opField, BitVec.extractLsb'_toNat, Nat.shiftRight_eq_div_pow]
  omega

/-- Y as a number. -/
theorem yField_toNat (w : CmdWord) : (yField w).toNat = w.toNat / 256 % 256 := by
  simp [yField, BitVec.extractLsb'_toNat, Nat.shiftRight_eq_div_pow]

/-- X as a number. -/
theorem xField_toNat (w : CmdWord) : (xField w).toNat = w.toNat % 256 := by
  simp [xField, BitVec.extractLsb'_toNat]

/-- Z as a number. -/
theorem zField_toNat (w : CmdWord) : (zField w).toNat = w.toNat % 65536 := by
  simp [zField, BitVec.extractLsb'_toNat]

@[simp] theorem opField_wordOfFields (op : BitVec 4) (y x : Byte) : opField (wordOfFields op y x) = op := by
  apply BitVec.eq_of_toNat_eq
  have := y.isLt
  have := x.isLt
  rw [opField_toNat, wordOfFields_toNat]
  omega

@[simp] theorem yField_wordOfFields (op : BitVec 4) (y x : Byte) : yField (wordOfFields op y x) = y := by
  apply BitVec.eq_of_toNat_eq
  have := y.isLt
  have := x.isLt
  rw [yField_toNat, wordOfFields_toNat]
  omega

@[simp] theorem xField_wordOfFields (op : BitVec 4) (y x : Byte) : xField (wordOfFields op y x) = x := by
  apply BitVec.eq_of_toNat_eq
  have := y.isLt
  have := x.isLt
  rw [xField_toNat, wordOfFields_toNat]
  omega

@[simp] theorem opField_wordOfWide (op : BitVec 4) (z : Wide) : opField (wordOfWide op z) = op := by
  apply BitVec.eq_of_toNat_eq
  have := z.isLt
  rw [opField_toNat, wordOfWide_toNat]
  omega

@[simp] theorem zField_wordOfWide (op : BitVec 4) (z : Wide) : zField (wordOfWide op z) = z := by
  apply BitVec.eq_of_toNat_eq
  have := z.isLt
  rw [zField_toNat, wordOfWide_toNat]
  omega

/-- A word is built back from OP, Y and X. -/
theorem wordOfFields_fields (w : CmdWord) : wordOfFields (opField w) (yField w) (xField w) = w := by
  apply BitVec.eq_of_toNat_eq
  rw [wordOfFields_toNat, opField_toNat, yField_toNat, xField_toNat]
  omega

/-- A word is built back from OP and Z. -/
theorem wordOfWide_fields (w : CmdWord) : wordOfWide (opField w) (zField w) = w := by
  apply BitVec.eq_of_toNat_eq
  rw [wordOfWide_toNat, opField_toNat, zField_toNat]
  omega

/-- Z is zero exactly if Y and X are. -/
theorem zField_eq_zero_iff (w : CmdWord) : zField w = 0 ↔ yField w = 0 ∧ xField w = 0 := by
  have h₈ : (0 : Byte).toNat = 0 := rfl
  have h₁₆ : (0 : Wide).toNat = 0 := rfl
  simp only [← BitVec.toNat_inj, zField_toNat, yField_toNat, xField_toNat, h₈, h₁₆]
  omega

end Sys2Proof.Machine

namespace Sys2Proof

/-- What the decoder answers for a one-operand operation, once. -/
theorem decodeOneOperand_eq_legal {w : CmdWord} {i j : Instr} :
    decodeOneOperand w i = .legal j ↔ Machine.yField w = 0 ∧ i = j := by
  unfold decodeOneOperand
  split <;> simp_all

/-- What the decoder answers for a no-operand operation, once. -/
theorem decodeNoOperand_eq_legal {w : CmdWord} {i j : Instr} :
    decodeNoOperand w i = .legal j ↔ Machine.zField w = 0 ∧ i = j := by
  unfold decodeNoOperand
  split <;> simp_all

theorem decodeLegal_eq_some {w : CmdWord} {i : Instr} : decodeLegal w = some i ↔ decode w = .legal i := by
  unfold decodeLegal
  split <;> simp_all

end Sys2Proof
end

