-- ==== Sys2Proof/Laws/PerInstr.lean ====
section
/-!
SUPPORT. Per instruction: its encoded word selects its row of the opcode map (`30_encoding.md` R56), so the fixed bits
of the word are those of the row.
-/

namespace Sys2Proof.Laws.RowSelected

/-- The encoded word of `i` agrees with the match of its row under the row's mask, and the row is in the table. -/
def Statement (i : Instr) : Prop :=
  rowOf i ∈ opcodeTable ∧ (rowOf i).selects (encode i) = true

/-- The mask of formats F2 and FZ keeps OP alone. -/
theorem mask_op (w : CmdWord) : w &&& 0xF0000 = Machine.wordOfFields (Machine.opField w) 0 0 := by
  apply BitVec.eq_of_getLsbD_eq
  intro i hi
  have : i = 0 ∨ i = 1 ∨ i = 2 ∨ i = 3 ∨ i = 4 ∨ i = 5 ∨ i = 6 ∨ i = 7 ∨ i = 8 ∨ i = 9 ∨ i = 10 ∨ i = 11 ∨ i = 12 ∨
      i = 13 ∨ i = 14 ∨ i = 15 ∨ i = 16 ∨ i = 17 ∨ i = 18 ∨ i = 19 := by omega
  rcases this with h | h | h | h | h | h | h | h | h | h | h | h | h | h | h | h | h | h | h | h <;> subst h <;>
    simp [Machine.wordOfFields, Machine.opField]

/-- The mask of format F1 keeps OP and Y. -/
theorem mask_opY (w : CmdWord) :
    w &&& 0xFFF00 = Machine.wordOfFields (Machine.opField w) (Machine.yField w) 0 := by
  apply BitVec.eq_of_getLsbD_eq
  intro i hi
  have : i = 0 ∨ i = 1 ∨ i = 2 ∨ i = 3 ∨ i = 4 ∨ i = 5 ∨ i = 6 ∨ i = 7 ∨ i = 8 ∨ i = 9 ∨ i = 10 ∨ i = 11 ∨ i = 12 ∨
      i = 13 ∨ i = 14 ∨ i = 15 ∨ i = 16 ∨ i = 17 ∨ i = 18 ∨ i = 19 := by omega
  rcases this with h | h | h | h | h | h | h | h | h | h | h | h | h | h | h | h | h | h | h | h <;> subst h <;>
    simp [Machine.wordOfFields, Machine.opField, Machine.yField]

theorem clmul (x y : Byte) : Statement (.clmul x y) := by
  refine ⟨by simp [rowOf, opcodeTable], ?_⟩
  simp only [rowOf, OpRow.selects, encode, mask_op]
  simp
  decide

theorem pmod (z : Wide) : Statement (.pmod z) := by
  refine ⟨by simp [rowOf, opcodeTable], ?_⟩
  simp only [rowOf, OpRow.selects, encode, mask_op]
  simp
  decide

theorem gfmul (x y : Byte) : Statement (.gfmul x y) := by
  refine ⟨by simp [rowOf, opcodeTable], ?_⟩
  simp only [rowOf, OpRow.selects, encode, mask_op]
  simp
  decide

theorem gfinv (x : Byte) : Statement (.gfinv x) := by
  refine ⟨by simp [rowOf, opcodeTable], ?_⟩
  simp only [rowOf, OpRow.selects, encode, mask_opY]
  simp
  decide

theorem afff (x : Byte) : Statement (.afff x) := by
  refine ⟨by simp [rowOf, opcodeTable], ?_⟩
  simp only [rowOf, OpRow.selects, encode, mask_opY]
  simp
  decide

theorem affi (x : Byte) : Statement (.affi x) := by
  refine ⟨by simp [rowOf, opcodeTable], ?_⟩
  simp only [rowOf, OpRow.selects, encode, mask_opY]
  simp
  decide

theorem sbox (x : Byte) : Statement (.sbox x) := by
  refine ⟨by simp [rowOf, opcodeTable], ?_⟩
  simp only [rowOf, OpRow.selects, encode, mask_opY]
  simp
  decide

theorem isbox (x : Byte) : Statement (.isbox x) := by
  refine ⟨by simp [rowOf, opcodeTable], ?_⟩
  simp only [rowOf, OpRow.selects, encode, mask_opY]
  simp
  decide

theorem gens : Statement .gens := by
  unfold Statement
  decide

theorem geni : Statement .geni := by
  unfold Statement
  decide

theorem stat : Statement .stat := by
  unfold Statement
  decide

end Sys2Proof.Laws.RowSelected
end

