-- ==== Sys2Proof/Laws/Polynomial.lean ====
section
/-!
SUPPORT. The loops of the multiplier and the reducer (`40_polynomial.md` R70, R73): what one iteration does, and that
more iterations than needed change nothing.
-/

namespace Sys2Proof.Machine

theorem clmulBelow_succ (x y n : Nat) :
    clmulBelow x y (n + 1) = clmulBelow x y n ^^^ (if x.testBit n then y <<< n else 0) := by
  rw [clmulBelow]
  split <;> simp

/-- Iterations past the bit-length of `x` add nothing. -/
theorem clmulBelow_of_bitlen_le {x y n : Nat} (h : bitlen x ≤ n) : clmulBelow x y n = clmul x y := by
  induction n with
  | zero => rw [clmul, Nat.le_zero.mp h]
  | succ n ih =>
    rcases Nat.lt_or_ge n (bitlen x) with hn | hn
    · rw [clmul, show bitlen x = n + 1 by omega]
    · rw [clmulBelow_succ, ih hn, testBit_of_bitlen_le hn]
      simp

/-- One iteration of the reducer lowers the bit-length: the highest bit is cancelled and only lower bits change. -/
theorem bitlen_reduce_lt {m r : Nat} (hm : 0 < m) (h : bitlen m ≤ bitlen r) :
    bitlen (r ^^^ (m <<< (bitlen r - bitlen m))) < bitlen r := by
  have hmp : 0 < bitlen m := bitlen_pos_iff.mpr hm
  have hr : 0 < r := bitlen_pos_iff.mp (by omega)
  refine Nat.lt_of_le_of_lt (bitlen_le_of_testBit (n := bitlen r - 1) fun i hi => ?_) (by omega)
  rw [Nat.testBit_xor, Nat.testBit_shiftLeft]
  rcases Nat.eq_or_lt_of_le hi with h₁ | h₁
  · have hrb := testBit_bitlen_pred hr
    have hmb := testBit_bitlen_pred hm
    rw [← h₁, show bitlen r - 1 - (bitlen r - bitlen m) = bitlen m - 1 by omega, hrb, hmb]
    have : bitlen r - bitlen m ≤ bitlen r - 1 := by omega
    simp [this]
  · rw [testBit_of_bitlen_le (v := r) (by omega), testBit_of_bitlen_le (v := m) (by omega)]
    simp

/-- Any fuel of at least the bit-length of `r` gives the same result. -/
theorem pmodLoop_fuel {m : Nat} (hm : 0 < m) {f r : Nat} (h : bitlen r ≤ f) :
    pmodLoop m f r = pmodLoop m (bitlen r) r := by
  induction f using Nat.strong_induction_on generalizing r with
  | _ f ih =>
    have hmp : 0 < bitlen m := bitlen_pos_iff.mpr hm
    rcases Nat.eq_or_lt_of_le h with h₁ | h₁
    · rw [h₁]
    · obtain ⟨g, rfl⟩ : ∃ g, f = g + 1 := ⟨f - 1, by omega⟩
      by_cases hc : bitlen m ≤ bitlen r
      · obtain ⟨k, hk⟩ : ∃ k, bitlen r = k + 1 := ⟨bitlen r - 1, by omega⟩
        have hlt := bitlen_reduce_lt hm hc
        rw [hk, pmodLoop, if_pos hc, pmodLoop, if_pos hc, ih g (by omega) (by omega), ih k (by omega) (by omega)]
      · rw [pmodLoop, if_neg hc]
        cases hk : bitlen r with
        | zero => rw [pmodLoop]
        | succ k => rw [pmodLoop, if_neg hc]

end Sys2Proof.Machine
end

