-- ==== Sys2Proof/Laws/State.lean ====
section
/-!
SUPPORT. The small lemmas of the state's updates, one per field and update, so that no proof unfolds a record update;
and of the sequencer.
-/

namespace Sys2Proof.Machine

@[simp] theorem State.emit_seq (s : State) (b : Beat) : (s.emit b).seq = s.seq := rfl
@[simp] theorem State.emit_fault (s : State) (b : Beat) : (s.emit b).fault = s.fault := rfl
@[simp] theorem State.emit_trace (s : State) (b : Beat) : (s.emit b).trace = s.trace ++ [b] := rfl
@[simp] theorem State.emit_words (s : State) (b : Beat) : (s.emit b).words = s.words := rfl
@[simp] theorem State.emit_turns (s : State) (b : Beat) : (s.emit b).turns = s.turns := rfl

@[simp] theorem State.emitResult_seq (s : State) (v : Wide) : (s.emitResult v).seq = s.seq := rfl
@[simp] theorem State.emitResult_fault (s : State) (v : Wide) : (s.emitResult v).fault = s.fault := rfl
@[simp] theorem State.emitResult_trace (s : State) (v : Wide) : (s.emitResult v).trace = s.trace ++ [.ok v] := rfl
@[simp] theorem State.emitResult_words (s : State) (v : Wide) : (s.emitResult v).words = s.words := rfl
@[simp] theorem State.emitResult_turns (s : State) (v : Wide) : (s.emitResult v).turns = s.turns := rfl

@[simp] theorem State.setFault_seq (s : State) : (s.setFault).seq = s.seq := rfl
@[simp] theorem State.setFault_fault (s : State) : (s.setFault).fault = true := rfl
@[simp] theorem State.setFault_trace (s : State) : (s.setFault).trace = s.trace := rfl
@[simp] theorem State.setFault_words (s : State) : (s.setFault).words = s.words := rfl
@[simp] theorem State.setFault_turns (s : State) : (s.setFault).turns = s.turns := rfl

@[simp] theorem State.clearFault_seq (s : State) : (s.clearFault).seq = s.seq := rfl
@[simp] theorem State.clearFault_fault (s : State) : (s.clearFault).fault = false := rfl
@[simp] theorem State.clearFault_trace (s : State) : (s.clearFault).trace = s.trace := rfl
@[simp] theorem State.clearFault_words (s : State) : (s.clearFault).words = s.words := rfl
@[simp] theorem State.clearFault_turns (s : State) : (s.clearFault).turns = s.turns := rfl

@[simp] theorem State.raiseIllegal_seq (s : State) : (s.raiseIllegal).seq = s.seq := rfl
@[simp] theorem State.raiseIllegal_fault (s : State) : (s.raiseIllegal).fault = true := rfl
@[simp] theorem State.raiseIllegal_trace (s : State) : (s.raiseIllegal).trace = s.trace ++ [.error] := rfl
@[simp] theorem State.raiseIllegal_words (s : State) : (s.raiseIllegal).words = s.words := rfl
@[simp] theorem State.raiseIllegal_turns (s : State) : (s.raiseIllegal).turns = s.turns := rfl

@[simp] theorem State.setSeq_seq (s : State) (q : Seq) : (s.setSeq q).seq = q := rfl
@[simp] theorem State.setSeq_fault (s : State) (q : Seq) : (s.setSeq q).fault = s.fault := rfl
@[simp] theorem State.setSeq_trace (s : State) (q : Seq) : (s.setSeq q).trace = s.trace := rfl
@[simp] theorem State.setSeq_words (s : State) (q : Seq) : (s.setSeq q).words = s.words := rfl
@[simp] theorem State.setSeq_turns (s : State) (q : Seq) : (s.setSeq q).turns = s.turns := rfl

@[simp] theorem State.startTable_seq (s : State) (inv : Bool) : (s.startTable inv).seq = ⟨true, inv, 0⟩ := rfl
@[simp] theorem State.startTable_fault (s : State) (inv : Bool) : (s.startTable inv).fault = s.fault := rfl
@[simp] theorem State.startTable_trace (s : State) (inv : Bool) : (s.startTable inv).trace = s.trace := rfl
@[simp] theorem State.startTable_words (s : State) (inv : Bool) : (s.startTable inv).words = s.words := rfl
@[simp] theorem State.startTable_turns (s : State) (inv : Bool) : (s.startTable inv).turns = s.turns := rfl

@[simp] theorem State.resetCore_seq (s : State) : (s.resetCore).seq = .idle := rfl
@[simp] theorem State.resetCore_fault (s : State) : (s.resetCore).fault = false := rfl
@[simp] theorem State.resetCore_trace (s : State) : (s.resetCore).trace = s.trace := rfl
@[simp] theorem State.resetCore_words (s : State) : (s.resetCore).words = s.words := rfl
@[simp] theorem State.resetCore_turns (s : State) : (s.resetCore).turns = s.turns := rfl

@[simp] theorem State.dropWord_seq (s : State) : (s.dropWord).seq = s.seq := rfl
@[simp] theorem State.dropWord_fault (s : State) : (s.dropWord).fault = s.fault := rfl
@[simp] theorem State.dropWord_trace (s : State) : (s.dropWord).trace = s.trace := rfl
@[simp] theorem State.dropWord_words (s : State) : (s.dropWord).words = s.words.tail := rfl
@[simp] theorem State.dropWord_turns (s : State) : (s.dropWord).turns = s.turns := rfl

@[simp] theorem State.dropTurn_seq (s : State) : (s.dropTurn).seq = s.seq := rfl
@[simp] theorem State.dropTurn_fault (s : State) : (s.dropTurn).fault = s.fault := rfl
@[simp] theorem State.dropTurn_trace (s : State) : (s.dropTurn).trace = s.trace := rfl
@[simp] theorem State.dropTurn_words (s : State) : (s.dropTurn).words = s.words := rfl
@[simp] theorem State.dropTurn_turns (s : State) : (s.dropTurn).turns = s.turns.tail := rfl

@[simp] theorem State.emitEntry_seq (s : State) : (s.emitEntry).seq = s.seq.advance := rfl
@[simp] theorem State.emitEntry_fault (s : State) : (s.emitEntry).fault = s.fault := rfl
@[simp] theorem State.emitEntry_trace (s : State) : (s.emitEntry).trace = s.trace ++ [.table s.seq.idx (tableEntry s.seq.inv s.seq.idx)] := rfl
@[simp] theorem State.emitEntry_words (s : State) : (s.emitEntry).words = s.words := rfl
@[simp] theorem State.emitEntry_turns (s : State) : (s.emitEntry).turns = s.turns := rfl

@[simp] theorem State.presentFirst_seq (s : State) (w : CmdWord) : (s.presentFirst w).seq = .idle := rfl
@[simp] theorem State.presentFirst_fault (s : State) (w : CmdWord) : (s.presentFirst w).fault = s.fault := rfl
@[simp] theorem State.presentFirst_trace (s : State) (w : CmdWord) : (s.presentFirst w).trace = s.trace := rfl
@[simp] theorem State.presentFirst_words (s : State) (w : CmdWord) : (s.presentFirst w).words = w :: s.words := rfl
@[simp] theorem State.presentFirst_turns (s : State) (w : CmdWord) : (s.presentFirst w).turns = .core :: s.turns := rfl

@[simp] theorem Seq.idle_run : Seq.idle.run = false := rfl
@[simp] theorem Seq.idle_inv : Seq.idle.inv = false := rfl
@[simp] theorem Seq.idle_idx : Seq.idle.idx = 0 := rfl

/-- After entry 255 the sequencer is at rest (`10_state.md` R27). -/
@[simp] theorem Seq.advance_last (r v : Bool) : Seq.advance ⟨r, v, 255⟩ = .idle := rfl

/-- Before entry 255 only the index moves (`10_state.md` R27). -/
theorem Seq.advance_of_ne {q : Seq} (h : q.idx ≠ 255) : q.advance = { q with idx := q.idx + 1 } :=
  if_neg h

/-- Two states are equal if their five fields are. -/
theorem State.ext_fields {s t : State} (h₁ : s.seq = t.seq) (h₂ : s.fault = t.fault) (h₃ : s.trace = t.trace)
    (h₄ : s.words = t.words) (h₅ : s.turns = t.turns) : s = t := by
  cases s
  cases t
  simp_all

end Sys2Proof.Machine
end

