-- ==== Sys2Proof/Laws/Step.lean ====
section
/-!
SUPPORT. Once and for all: what each operation does, what an operation can do, and what a step can do.
-/

namespace Sys2Proof.Machine

theorem exec_clmul (x y : Byte) (s : State) :
    exec (.clmul x y) s = .next (s.emitResult (BitVec.ofNat 16 (clmul x.toNat y.toNat))) := rfl

theorem exec_pmod (z : Wide) (s : State) :
    exec (.pmod z) s = .next (s.emitResult (BitVec.ofNat 16 (pmod z.toNat modulus modulus_pos))) := rfl

theorem exec_gfmul (x y : Byte) (s : State) :
    exec (.gfmul x y) s = .next (s.emitResult (zext16 (gfmul x y))) := rfl

theorem exec_gfinv (x : Byte) (s : State) : exec (.gfinv x) s = .next (s.emitResult (zext16 (gfinv x))) := rfl

theorem exec_afff (x : Byte) (s : State) :
    exec (.afff x) s = .next (s.emitResult (zext16 (affine aFwd x bFwd))) := rfl

theorem exec_affi (x : Byte) (s : State) :
    exec (.affi x) s = .next (s.emitResult (zext16 (affine aInv x bInv))) := rfl

theorem exec_sbox (x : Byte) (s : State) : exec (.sbox x) s = .next (s.emitResult (zext16 (sbox x))) := rfl

theorem exec_isbox (x : Byte) (s : State) : exec (.isbox x) s = .next (s.emitResult (zext16 (invSbox x))) := rfl

theorem exec_gens (s : State) : exec .gens s = .next (s.startTable false) := rfl

theorem exec_geni (s : State) : exec .geni s = .next (s.startTable true) := rfl

theorem exec_stat (s : State) : exec .stat s = .next (s.emitResult (statusOf s.fault)) := rfl

/-- Everything an operation can do: one result beat and nothing else, or the start of a table (`10_state.md` R26). -/
theorem exec_cases (i : Instr) (s : State) :
    (∃ v, exec i s = .next (s.emitResult v)) ∨ ∃ inv, exec i s = .next (s.startTable inv) := by
  cases i <;> first | exact .inl ⟨_, rfl⟩ | exact .inr ⟨_, rfl⟩

/-- ACCEPT of an illegal word raises IllegalCommand (`60_exceptions.md` R120). -/
theorem acceptWord_illegal {w : CmdWord} {c : IllegalCause} (h : decode w = .illegal c) (s : State) :
    acceptWord w s = .next s.raiseIllegal := by
  simp [acceptWord, h]

/-- ACCEPT of a legal word runs its operation (`10_state.md` R26). -/
theorem acceptWord_legal {w : CmdWord} {i : Instr} (h : decode w = .legal i) (s : State) :
    acceptWord w s = exec i s := by
  simp [acceptWord, h]

/-- Everything a step can do (`10_state.md` R25): RESET, EMIT, ACCEPT of an illegal word, ACCEPT of a legal word, or an
idle turn; each with the condition under which it is the step taken. -/
theorem step_cases (s : State) :
    (s.nextKind = some .reset ∧ step s = .next s.dropTurn.resetCore) ∨
    (s.nextKind = some .emit ∧ s.seq.run = true ∧ step s = .next s.dropTurn.emitEntry) ∨
    (∃ w ws c, s.nextKind = some (.accept w) ∧ s.seq.run = false ∧ s.words = w :: ws ∧ decode w = .illegal c ∧
      step s = .next s.dropTurn.dropWord.raiseIllegal) ∨
    (∃ w ws i, s.nextKind = some (.accept w) ∧ s.seq.run = false ∧ s.words = w :: ws ∧ decode w = .legal i ∧
      step s = exec i s.dropTurn.dropWord) ∨
    (s.nextKind = none ∧ s.seq.run = false ∧ s.words = [] ∧ step s = .next s.dropTurn) := by
  by_cases ht : s.turns.head? = some .reset
  · exact .inl (by simp [State.nextKind, ht, step, stepMachine, State.take])
  · have hk : s.nextKind = s.coreStep := by
      unfold State.nextKind
      split
      · contradiction
      · rfl
    refine .inr ?_
    cases hr : s.seq.run with
    | true => exact .inl (by simp [hk, State.coreStep, hr, step, stepMachine, State.take])
    | false =>
      refine .inr ?_
      cases hw : s.words with
      | nil => exact .inr (.inr (by simp [hk, State.coreStep, hr, hw, step, stepMachine]))
      | cons w ws =>
        cases hd : decode w with
        | illegal c =>
          exact .inl ⟨w, ws, c, by simp [hk, State.coreStep, hr, hw, hd, step, stepMachine, State.take,
            acceptWord_illegal hd]⟩
        | legal i =>
          exact .inr (.inl ⟨w, ws, i, by simp [hk, State.coreStep, hr, hw, hd, step, stepMachine, State.take,
            acceptWord_legal hd]⟩)

/-- On CORE's turn the step is the one CORE would take. -/
theorem nextKind_of_coreTurn {s : State} (h : s.CoreTurn) : s.nextKind = s.coreStep := by
  unfold State.nextKind
  split
  · contradiction
  · rfl

/-- A run of no steps stays. -/
theorem runSteps_zero (s : State) : runSteps 0 s = .next s := rfl

/-- A run of one more step, when the first answers a next state. -/
theorem runSteps_succ {s t : State} (h : step s = .next t) (n : Nat) : runSteps (n + 1) s = runSteps n t := by
  have hc : Sys2Proof.core.step s = .next t := h
  simp only [runSteps, Host.Core.run, hc]
  rfl

/-- If no RESET is placed among the next `n + 1` steps, CORE is on turn and none is among the `n` after it. -/
theorem noResetFor_succ {s : State} {n : Nat} (h : s.NoResetFor (n + 1)) : s.CoreTurn ∧ s.dropTurn.NoResetFor n := by
  obtain ⟨q, f, tr, ws, ts⟩ := s
  cases ts with
  | nil => simp [State.CoreTurn, State.NoResetFor, State.dropTurn]
  | cons t ts =>
    simp only [State.NoResetFor, List.take_succ_cons, List.mem_cons] at h
    refine ⟨?_, fun u hu => h u (.inr hu)⟩
    simp [State.CoreTurn, h t (.inl rfl)]

end Sys2Proof.Machine
end

