-- ==== Sys2Proof/Laws/Tables.lean ====
section
/-!
SUPPORT. The beats of a table, one by one (`10_state.md` R27, `43_sbox.md` R106, R107).
-/

namespace Sys2Proof.Machine

@[simp] theorem tableBeats_length (inv : Bool) : (tableBeats inv).length = 256 := by
  simp [tableBeats, Config.tableLength]

/-- The first k + 1 beats are the first k and then the beat of entry k. -/
theorem tableBeats_take_succ (inv : Bool) {k : Nat} (h : k < 256) :
    (tableBeats inv).take (k + 1) =
      (tableBeats inv).take k ++ [.table (BitVec.ofNat 8 k) (tableEntry inv (BitVec.ofNat 8 k))] := by
  rw [List.take_add_one]
  simp [tableBeats, Config.tableLength, h]

/-- The beats from k on are the beat of entry k and then those from k + 1 on. -/
theorem tableBeats_drop (inv : Bool) {k : Nat} (h : k < 256) :
    (tableBeats inv).drop k =
      .table (BitVec.ofNat 8 k) (tableEntry inv (BitVec.ofNat 8 k)) :: (tableBeats inv).drop (k + 1) := by
  rw [List.drop_eq_getElem_cons (by simpa using h)]
  simp [tableBeats]

end Sys2Proof.Machine
end

