-- ==== Sys2Proof/Tests/Slice0.lean ====
section
/-!
SUPPORT. Tests: ill-formed terms that the checks refuse, words and results the spec writes out (`30_encoding.md` R65,
`95_test_vectors.md` V1 to V9), and a witness for every statement that has hypotheses.
-/

namespace Sys2Proof.Tests

open Sys2Proof.Machine Sys2Proof.Spec

/-! ## Well-formedness: each check refuses its ill-formed term -/

theorem test_wf_refuses_reserved_op : CmdWord.opAssigned 0x00000 = false ∧ CmdWord.opAssigned 0xC0000 = false ∧
    CmdWord.opAssigned 0xFFFFF = false ∧ CmdWord.opAssigned 0x10000 = true ∧ CmdWord.opAssigned 0xB0000 = true := by
  decide

theorem test_wf_refuses_stray_y : CmdWord.oneOperandZero 0x40100 = false ∧ CmdWord.oneOperandZero 0x8ED00 = false ∧
    CmdWord.oneOperandZero 0x400FF = true ∧ CmdWord.oneOperandZero 0x3FF00 = true := by
  decide

theorem test_wf_refuses_stray_z : CmdWord.noOperandZero 0x90001 = false ∧ CmdWord.noOperandZero 0xB0100 = false ∧
    CmdWord.noOperandZero 0x90000 = true ∧ CmdWord.noOperandZero 0x8FFFF = true := by
  decide

theorem test_wf_word : CmdWord.wf 0x00000 = false ∧ CmdWord.wf 0x40153 = false ∧ CmdWord.wf 0xA8000 = false ∧
    CmdWord.wf 0x2FFFF = true ∧ CmdWord.wf 0xB0000 = true := by
  decide

theorem test_wf_beat : (Beat.wf ⟨true, false, 0, 1⟩) = false ∧ (Beat.wf ⟨true, true, 0, 2⟩) = false ∧
    (Beat.wf ⟨false, false, 255, 0x16⟩) = false ∧ (Beat.wf ⟨false, true, 7, 0x16⟩) = false ∧
    (Beat.wf ⟨false, false, 7, 0x100⟩) = false ∧ (Beat.wf ⟨false, true, 0, 0x8000⟩) = false ∧
    (Beat.wf ⟨false, true, 0, 0x7FFE⟩) = true ∧ (Beat.wf ⟨false, true, 255, 0x16⟩) = true ∧ Beat.error.wf = true := by
  decide

theorem test_wf_operand_ranges : Stmt.wf (.clmul 256 0) = false ∧ Stmt.wf (.clmul 0 256) = false ∧
    Stmt.wf (.gfmul 256 0) = false ∧ Stmt.wf (.gfmul 0 256) = false ∧ Stmt.wf (.pmod 65536) = false ∧
    Stmt.wf (.gfinv 256) = false ∧ Stmt.wf (.afff 256) = false ∧ Stmt.wf (.affi 256) = false ∧
    Stmt.wf (.sbox 256) = false ∧ Stmt.wf (.isbox 256) = false ∧ Stmt.wf (.word 0x100000) = false ∧
    Stmt.wf (.gfinv 255) = true ∧ Stmt.wf (.pmod 65535) = true ∧ Stmt.wf (.word 0xFFFFF) = true := by
  decide

/-! ## Decoding: a word of each operation, from `30_encoding.md` R65, and the encoder back -/

theorem test_decode_clmul : decode 0b0001_10000011_01010111 = .legal (.clmul 0x57 0x83) := by decide
theorem test_decode_pmod : decode 0b0010_00101011_01111001 = .legal (.pmod 0x2B79) := by decide
theorem test_decode_gfmul : decode 0b0011_10000011_01010111 = .legal (.gfmul 0x57 0x83) := by decide
theorem test_decode_gfinv : decode 0b0100_00000000_01010011 = .legal (.gfinv 0x53) := by decide
theorem test_decode_afff : decode 0b0101_00000000_11001010 = .legal (.afff 0xCA) := by decide
theorem test_decode_affi : decode 0b0110_00000000_11101101 = .legal (.affi 0xED) := by decide
theorem test_decode_sbox : decode 0b0111_00000000_01010011 = .legal (.sbox 0x53) := by decide
theorem test_decode_isbox : decode 0b1000_00000000_11101101 = .legal (.isbox 0xED) := by decide
theorem test_decode_gens : decode 0b1001_00000000_00000000 = .legal .gens := by decide
theorem test_decode_geni : decode 0b1010_00000000_00000000 = .legal .geni := by decide
theorem test_decode_stat : decode 0b1011_00000000_00000000 = .legal .stat := by decide

theorem test_encode_words : encode (.clmul 0x57 0x83) = 0x18357 ∧ encode (.pmod 0x2B79) = 0x22B79 ∧
    encode (.gfmul 0x57 0x83) = 0x38357 ∧ encode (.gfinv 0x53) = 0x40053 ∧ encode (.afff 0xCA) = 0x500CA ∧
    encode (.affi 0xED) = 0x600ED ∧ encode (.sbox 0x53) = 0x70053 ∧ encode (.isbox 0xED) = 0x800ED ∧
    encode .gens = 0x90000 ∧ encode .geni = 0xA0000 ∧ encode .stat = 0xB0000 := by
  decide

/-- The illegal words of `95_test_vectors.md` V8, at the limits of each cause. -/
theorem test_decode_illegal : decode 0x00000 = .illegal .reservedOp ∧ decode 0x0FFFF = .illegal .reservedOp ∧
    decode 0xC0000 = .illegal .reservedOp ∧ decode 0xD1234 = .illegal .reservedOp ∧
    decode 0xE0000 = .illegal .reservedOp ∧ decode 0xFFFFF = .illegal .reservedOp ∧
    decode 0x40100 = .illegal .nonzeroY ∧ decode 0x58000 = .illegal .nonzeroY ∧ decode 0x6FF05 = .illegal .nonzeroY ∧
    decode 0x70100 = .illegal .nonzeroY ∧ decode 0x8ED00 = .illegal .nonzeroY ∧ decode 0x90001 = .illegal .nonzeroZ ∧
    decode 0xA8000 = .illegal .nonzeroZ ∧ decode 0xB0100 = .illegal .nonzeroZ := by
  decide

/-- A table word has 20 bits in three whole bytes. -/
theorem test_decode_table_word : decodeTableWord 24 0x70053 = some (.sbox 0x53) ∧
    decodeTableWord 24 0x170053 = none ∧ decodeTableWord 24 0xC0000 = none := by
  decide

/-! ## One step of each operation, from `95_test_vectors.md` V1 to V9 -/

/-- The beats, as 26-bit words, after one step from reset with the word `w` presented. -/
def beatsOf (w : Nat) : Option (List Nat) :=
  match step (State.reset.withFetchWord 24 w) with
  | .next s => some (s.trace.map fun b => b.toWord.toNat)
  | .fault _ => none
  | .refused _ => none

/-- The state after one step. -/
def after (s : State) : Option State :=
  match step s with
  | .next t => some t
  | .fault _ => none
  | .refused _ => none

theorem test_step_clmul : beatsOf 0x18357 = some [0x1002B79] := by decide
theorem test_step_clmul_square : beatsOf 0x1FFFF = some [0x1005555] := by decide
theorem test_step_pmod : beatsOf 0x22B79 = some [0x10000C1] := by decide
theorem test_step_pmod_top : beatsOf 0x2FFFF = some [0x1000035] := by decide
theorem test_step_gfmul : beatsOf 0x38357 = some [0x10000C1] := by decide
theorem test_step_gfmul_reduces : beatsOf 0x38002 = some [0x100001B] := by decide
theorem test_step_gfinv_zero : beatsOf 0x40000 = some [0x1000000] := by decide
theorem test_step_gfinv : beatsOf 0x40003 = some [0x10000F6] := by decide
theorem test_step_afff : beatsOf 0x500CA = some [0x10000ED] := by decide
theorem test_step_afff_column : beatsOf 0x50080 = some [0x10000EC] := by decide
theorem test_step_affi : beatsOf 0x600ED = some [0x10000CA] := by decide
theorem test_step_affi_column : beatsOf 0x60080 = some [0x1000020] := by decide
theorem test_step_sbox : beatsOf 0x70053 = some [0x10000ED] := by decide
theorem test_step_isbox : beatsOf 0x800ED = some [0x1000053] := by decide
theorem test_step_isbox_zero : beatsOf 0x80063 = some [0x1000000] := by decide
theorem test_step_gens : (after (State.reset.withFetchWord 24 0x90000)).map (fun t => (t.seq, t.trace)) =
    some (⟨true, false, 0⟩, []) := by decide
theorem test_step_geni : (after (State.reset.withFetchWord 24 0xA0000)).map (fun t => (t.seq, t.trace)) =
    some (⟨true, true, 0⟩, []) := by decide
theorem test_step_stat : beatsOf 0xB0000 = some [0x1000000] := by decide

/-- STAT with FAULT = 1 answers 1 and does not clear it (V9.3). -/
theorem test_step_stat_fault :
    (after ({ State.reset with fault := true }.withFetchWord 24 0xB0000)).map (fun t => (t.fault, t.trace)) =
      some (true, [.ok 1]) := by decide

/-- An illegal word sets FAULT and answers the error beat 0x3000001 (V9.2). -/
theorem test_step_illegal : beatsOf 0x40153 = some [0x3000001] ∧
    (after (State.reset.withFetchWord 24 0x40153)).map (fun t => t.fault) = some true := by decide

/-- The third entry of the forward table (V7). -/
theorem test_emit_forward : (after { State.reset with seq := ⟨true, false, 2⟩ }).map
    (fun t => (t.seq, t.trace.map fun b => b.toWord.toNat)) = some (⟨true, false, 3⟩, [0x0020077]) := by decide

/-- The last entry of the inverse table ends it (V7). -/
theorem test_emit_last : (after { State.reset with seq := ⟨true, true, 255⟩ }).map
    (fun t => (t.seq, t.trace.map fun b => b.toWord.toNat)) = some (⟨false, false, 0⟩, [0x1FF007D]) := by decide

/-- RESET during a table: no beat, all fields 0, the waiting word stays (V9.9, P5). -/
theorem test_reset_in_table :
    after ⟨⟨true, false, 3⟩, true, [.table 0 0x63], [0xB0000], [.reset]⟩ =
      some ⟨⟨false, false, 0⟩, false, [.table 0 0x63], [0xB0000], []⟩ := by decide

/-- A word presented while a table runs waits (V9.13, P6). -/
theorem test_word_waits : (after ⟨⟨true, true, 0⟩, false, [], [0x70000], []⟩).map (fun t => t.words) =
    some [0x70000] := by decide

/-! ## Functions -/

/-- The general reducer with other moduli (V2). -/
theorem test_pmod_moduli : pmod 0x2B79 0x1 (by decide) = 0 ∧ pmod 0x2B79 0x3 (by decide) = 1 ∧
    pmod 0x2B79 0x13 (by decide) = 0xC ∧ pmod 0xFF 0x100 (by decide) = 0xFF ∧ pmod 0x0 0x1 (by decide) = 0 := by
  decide

/-- Parity, population count and bit-length (R8, R9). -/
theorem test_bits : bitlen 0 = 0 ∧ bitlen 1 = 1 ∧ bitlen 0xFF = 8 ∧ bitlen 0x11B = 9 ∧ bitlen 0x4000 = 15 ∧
    popcount 0x2B79 = 9 ∧ parity 0 = false ∧ parity 0x1F = true ∧ parity 0x63 = false ∧ parity 0xFF = false := by
  decide

/-- Entry 0x53 stands at row 5, column 3 (S20). -/
theorem test_position : tablePosition 0x53 = (5, 3) := by decide

/-- `CLMUL 0x57, 0x83`, a comment, and `GENALL` as lines of text (R63, R64). -/
theorem test_assemble_lines :
    assembleLine ['C', 'L', 'M', 'U', 'L', ' ', '0', 'x', '5', '7', ',', ' ', '0', 'x', '8', '3', ' ', '#', 'a'] =
      some [.command 0x18357] ∧
    assembleLine ['G', 'F', 'I', 'N', 'V', ' ', '2', '5', '6'] = none ∧ assembleLine [' ', '#'] = some [] ∧
    assembleLine ['G', 'E', 'N', 'A', 'L', 'L'] = some [.command 0x90000, .command 0xA0000] ∧
    assembleLine ['.', 'w', 'o', 'r', 'd', ' ', '1', '2'] = some [.command 0x0000C] := by
  decide

/-! ## Witnesses: what meets the hypotheses of the statements -/

/-- `DecodeEncodeInverse`, second part: each operation's word decodes. -/
theorem witness_legal_word : ∃ w i, decode w = .legal i := ⟨0x40053, .gfinv 0x53, by decide⟩

/-- `DecodeEveryWord`, `ReservedAndNonzeroBitsIllegal`: each value of OP occurs, the last Y and Z values included. -/
theorem witness_every_op : ∀ op : Fin 16, ∃ w : CmdWord, w.toNat / 65536 = op.val ∧ w.toNat % 65536 = 65535 :=
  fun op => ⟨BitVec.ofNat 20 (op.val * 65536 + 65535), by revert op; decide, by revert op; decide⟩

/-- `DecodeEveryWord`, the legal side: each value of OP occurs with Y, X and Z zero. -/
theorem witness_every_op_zero : ∀ op : Fin 16, ∃ w : CmdWord, w.toNat / 65536 = op.val ∧ w.toNat % 65536 = 0 :=
  fun op => ⟨BitVec.ofNat 20 (op.val * 65536), by revert op; decide, by revert op; decide⟩

/-- `OpcodeMapAgreesWithDecode`: each row selects a word. -/
theorem witness_row_selected : ∀ r ∈ opcodeTable, ∃ w : CmdWord, w &&& r.maskBits = r.matchBits :=
  fun r hr => ⟨r.matchBits, by revert r; decide⟩

/-- `ReservedAndNonzeroBitsIllegal`: its illegal words, one of each cause. -/
theorem witness_illegal_word : ∀ c, ∃ w, decode w = .illegal c
  | .reservedOp => ⟨0x00000, by decide⟩
  | .nonzeroY => ⟨0x40100, by decide⟩
  | .nonzeroZ => ⟨0xBFFFF, by decide⟩

/-- A state on CORE's turn, idle, presented the word `w`. -/
def idleWith (w : CmdWord) : State := ⟨.idle, true, [.ok 1], [w, 0xB0000], [.core, .reset]⟩

/-- A state on CORE's turn with a table running at the index `i`. -/
def runningAt (i : Byte) : State := ⟨⟨true, true, i⟩, true, [.ok 1], [0xB0000], [.core]⟩

/-- `StepRunsDecodedInstruction`: its hypotheses together. -/
theorem witness_step_runs : (idleWith 0x40053).CoreTurn ∧ (idleWith 0x40053).seq.run = false ∧
    (idleWith 0x40053).words = [0x40053, 0xB0000] ∧ decode 0x40053 = .legal (.gfinv 0x53) := by decide

/-- `AcceptStep`: each of its clauses. -/
theorem witness_accept : (runningAt 255).CoreTurn ∧ (runningAt 255).seq.run = true ∧
    (∀ w, (idleWith w).CoreTurn ∧ (idleWith w).seq.run = false ∧ (idleWith w).words = [w, 0xB0000]) ∧
    decode 0xFFFFF = .illegal .reservedOp ∧ decode 0x90000 = .legal .gens ∧ decode 0xA0000 = .legal .geni ∧
    decode 0xB0000 = .legal .stat ∧ Instr.stat ≠ .gens ∧ Instr.stat ≠ .geni := by
  refine ⟨by decide, by decide, fun w => ⟨by simp [State.CoreTurn, idleWith], rfl, rfl⟩, ?_⟩
  decide

/-- `EmitStep`, `BeatsIndependentOfHistory`, `FaultFlagRule`: at the first and the last index. -/
theorem witness_emit : (runningAt 0).CoreTurn ∧ (runningAt 0).seq.run = true ∧ (runningAt 255).CoreTurn ∧
    (runningAt 255).seq.run = true ∧ step (runningAt 0) = .next (runningAt 0).dropTurn.emitEntry := by
  exact ⟨by decide, rfl, by decide, rfl, rfl⟩

/-- `ResetStep`, `StatOperation` and the table operations: a RESET, and two, on turn while a table runs. -/
theorem witness_reset : ∃ s : State, s.turns = [.reset, .reset, .core] ∧ s.seq.run = true :=
  ⟨{ runningAt 7 with turns := [.reset, .reset, .core] }, rfl, rfl⟩

/-- `StepTakesOneEnabledKind`: each kind comes next somewhere, and none at reset. -/
theorem witness_next_kind : (idleWith 0x40053).nextKind = some (.accept 0x40053) ∧
    (runningAt 3).nextKind = some .emit ∧ { runningAt 3 with turns := [.reset] }.nextKind = some .reset ∧
    State.reset.nextKind = none := by decide

/-- `ThreeKindsOfBeat`, `FaultFlagRule`, `WordsTakenInOrder`, `TraceOnlyGrows`, `InvariantKeptByEveryStep`: a step from
a state that meets the invariant. -/
theorem witness_step : State.reset.Inv ∧ step State.reset = .next State.reset :=
  ⟨⟨fun _ => ⟨rfl, rfl⟩, by simp [State.TraceWf, State.reset], fun h => by simp [State.reset] at h,
    fun h => by simp [State.reset] at h⟩, rfl⟩

/-- `TraceOnlyGrows`, `WordsTakenInOrder`: a run that answers a next state. -/
theorem witness_run : ∃ t, runSteps 2 State.reset = .next t := ⟨State.reset, rfl⟩

/-- `IdleTurnLosesNothing`: its hypotheses together. -/
theorem witness_idle : State.reset.CoreTurn ∧ State.reset.seq.run = false ∧ State.reset.words = [] := by decide

/-- `PresentedWordRunsNext`: the first and the last operation of the table. -/
theorem witness_table_word : decodeTableWord 24 0x10000 = some (.clmul 0 0) ∧
    decodeTableWord 24 0xB0000 = some .stat := by decide

/-- `RunningTableCompletes`: at the first and the last index, RESET placed after the table. -/
theorem witness_running_table :
    (∃ s : State, s.seq.run = true ∧ s.seq.idx = 0 ∧ s.NoResetFor (256 - s.seq.idx.toNat)) ∧
    ∃ s : State, s.seq.run = true ∧ s.seq.idx = 255 ∧ s.NoResetFor (256 - s.seq.idx.toNat) ∧ .reset ∈ s.turns :=
  ⟨⟨runningAt 0, rfl, rfl, by decide⟩, ⟨{ runningAt 255 with turns := [.core, .reset] }, rfl, rfl, by decide, by decide⟩⟩

/-- `ResetCutsTable`: before the first entry and before the last. -/
theorem witness_reset_cuts : ∀ k ∈ [0, 255], ∃ (s : State) (ts : List Turn), s.seq = ⟨true, false, 0⟩ ∧ k ≤ 255 ∧
    s.turns = List.replicate k .core ++ .reset :: ts :=
  fun k hk => ⟨⟨⟨true, false, 0⟩, false, [], [], List.replicate k .core ++ [.reset]⟩, [], rfl, by revert k; decide, rfl⟩

/-- `CommandSequenceAnswered`, `GenallEmitsBothTables`, the table operations: an idle state, FAULT set, that presents
words, with no RESET placed. -/
theorem witness_sequence : ∀ ws : List CmdWord, ∃ s : State, s.seq = ⟨false, false, 0⟩ ∧ s.words = ws ∧ s.fault = true ∧
    ∀ n, s.NoResetFor n :=
  fun ws => ⟨⟨⟨false, false, 0⟩, true, [], ws, []⟩, rfl, rfl, rfl, fun n => by simp [State.NoResetFor]⟩

/-- `StatOperation`: a word is next, and a run after an illegal word. -/
theorem witness_stat : (idleWith 0xB0000).nextKind = some (.accept 0xB0000) ∧ State.reset.raiseIllegal.NoResetFor 2 ∧
    ∃ t, runSteps 2 State.reset.raiseIllegal = .next t := ⟨by decide, by decide, ⟨_, rfl⟩⟩

/-- `ClmulLaws`, `PmodContract`, `PmodLaws`, `PmodIterationBound`: their hypotheses on numbers, the least modulus
included. -/
theorem witness_polynomials : 0 < 0x57 ∧ 0 < 0x1 ∧ bitlen 0x1 ≤ bitlen 0x2B79 ∧ bitlen 0xFF < bitlen 0x11B ∧
    0x2B79 ^^^ 0xC1 = clmul 0x28 0x11B ∧ pmod 0x2B79 0x11B (by decide) = 0xC1 ∧ (0x7FFF#16).toNat < 2 ^ 15 := by decide

/-- `GfmulLaws`, `GfinvIsTheInverse`, `GfinvLaws`, `GfmulOperation`, `GfinvOperation`, `PmodOperation`. -/
theorem witness_field : gfmul 0x57 0 = 0 ∧ (0x53 : Byte) ≠ 0 ∧ gfmul 0x53 0xCA = 1 ∧ gfinv 1 = 1 ∧
    (0xC9 : Byte).toNat < 0xCA ∧ (0xFF : Wide).toNat < 0x100 := by decide

/-- The operations' words under their row's mask (`ClmulOperation`, `PmodOperation`, `GfmulOperation`), and the stray
bits of `oneOperandWords` and `noOperandWords`. -/
theorem witness_operation_words : (0x1FFFF : CmdWord) &&& 0xF0000 = 0x10000 ∧
    (0x2FFFF : CmdWord) &&& 0xF0000 = 0x20000 ∧ (0x3FFFF : CmdWord) &&& 0xF0000 = 0x30000 ∧
    (1 : Byte) ≠ 0 ∧ ¬((0 : Byte) = 0 ∧ (1 : Byte) = 0) ∧ ¬((0x80 : Byte) = 0 ∧ (0 : Byte) = 0) := by decide

/-- `BeatsIndependentOfHistory`, `FaultFlagRule`: an operation that is not STAT; `BeatNotationWords`: an index that is
not 255; the sequencer running. -/
theorem witness_not_stat : Instr.gens ≠ .stat ∧ (254 : Byte) ≠ 255 ∧ (⟨true, true, 255⟩ : Seq).run = true := by decide

/-- `ReservedAndNonzeroBitsIllegal`, `ResetStep`: the all-zero word and the one RESET. -/
theorem witness_zero_word : (0 : CmdWord).toNat / 65536 = 0 ∧ decode 0 = .illegal .reservedOp := by decide

end Sys2Proof.Tests
end

section
/-!
PROOFS. The statements of `10_state.md`: the ACCEPT and EMIT steps (R26, R27), the choice of a step (R25), FAULT (R19)
and the reset state (R30), each from what one step does and what one operation does.
-/

namespace Sys2Proof.Machine

/-! ### Which step comes next, and what it is -/

/-- On the host's turn the next step is RESET. -/
theorem nextKind_of_resetTurn {s : State} (h : s.turns.head? = some .reset) : s.nextKind = some .reset := by
  simp [State.nextKind, h]

/-- CORE has no step to take exactly when it is idle and presented no word. -/
theorem coreStep_eq_none_iff {s : State} : s.coreStep = none ↔ s.seq.run = false ∧ s.words = [] := by
  cases hr : s.seq.run <;> simp [State.coreStep, hr]

/-- On CORE's turn a running sequencer is what moves next. -/
theorem nextKind_emit {s : State} (hc : s.CoreTurn) (hr : s.seq.run = true) : s.nextKind = some .emit := by
  simp [nextKind_of_coreTurn hc, State.coreStep, hr]

/-- An idle CORE on turn accepts the word presented to it next. -/
theorem nextKind_accept {s : State} {w : CmdWord} {ws : List CmdWord} (hc : s.CoreTurn) (hr : s.seq.run = false)
    (hw : s.words = w :: ws) : s.nextKind = some (.accept w) := by
  simp [nextKind_of_coreTurn hc, State.coreStep, hr, hw]

/-- No step comes next exactly when CORE is on turn, idle and presented no word (`60_exceptions.md` R135). -/
theorem nextKind_eq_none_iff {s : State} : s.nextKind = none ↔ s.CoreTurn ∧ s.seq.run = false ∧ s.words = [] := by
  constructor
  · intro hn
    have hc : s.CoreTurn := fun ht => by simp [nextKind_of_resetTurn ht] at hn
    exact ⟨hc, coreStep_eq_none_iff.mp (nextKind_of_coreTurn hc ▸ hn)⟩
  · rintro ⟨hc, hidle⟩
    exact (nextKind_of_coreTurn hc).trans (coreStep_eq_none_iff.mpr hidle)

/-- ACCEPT of `w` is enabled exactly when the sequencer rests and `w` is the word presented (`10_state.md` R25). -/
theorem enabled_accept_iff {s : State} {w : CmdWord} :
    s.enabled (.accept w) = true ↔ s.seq.run = false ∧ ∃ ws, s.words = w :: ws := by
  simp [State.enabled, List.head?_eq_some_iff]

/-- The step that comes next is enabled. -/
theorem enabled_of_nextKind {s : State} {k : StepKind} (h : s.nextKind = some k) : s.enabled k = true := by
  rcases step_cases s with ⟨hk, _⟩ | ⟨hk, hr, _⟩ | ⟨w, ws, _, hk, hr, hw, _⟩ | ⟨w, ws, _, hk, hr, hw, _⟩ | ⟨hk, _⟩ <;>
    cases h.symm.trans hk
  · rfl
  · exact hr
  · exact enabled_accept_iff.mpr ⟨hr, ws, hw⟩
  · exact enabled_accept_iff.mpr ⟨hr, ws, hw⟩

/-- A step takes the kind that comes next, its turn passed. -/
theorem step_eq_take {s : State} {k : StepKind} (h : s.nextKind = some k) : step s = s.dropTurn.take k := by
  simp [step, stepMachine, h]

/-- On CORE's turn a running sequencer emits an entry (`10_state.md` R27). -/
theorem step_emit {s : State} (hc : s.CoreTurn) (hr : s.seq.run = true) : step s = .next s.dropTurn.emitEntry :=
  step_eq_take (nextKind_emit hc hr)

/-- On CORE's turn an idle CORE accepts the word presented (`10_state.md` R26). -/
theorem step_accept {s : State} {w : CmdWord} {ws : List CmdWord} (hc : s.CoreTurn) (hr : s.seq.run = false)
    (hw : s.words = w :: ws) : step s = acceptWord w s.dropTurn.dropWord :=
  step_eq_take (nextKind_accept hc hr hw)

/-- The state in which an operation runs: the presented word and the turn are taken. -/
theorem dropTurn_dropWord_eq {s : State} {w : CmdWord} {ws : List CmdWord} (hw : s.words = w :: ws) :
    s.dropTurn.dropWord = { s with words := ws, turns := s.turns.tail } :=
  State.ext_fields rfl rfl rfl (by simp [hw]) rfl

/-! ### What one operation does -/

/-- An illegal word decodes to no operation. -/
theorem decodeLegal_of_illegal {w : CmdWord} {c : IllegalCause} (h : decode w = .illegal c) : decodeLegal w = none := by
  simp [decodeLegal, h]

/-- STATUS as a number (`10_state.md` R20). -/
theorem statusOf_eq (f : Bool) : statusOf f = if f then 1 else 0 := by
  cases f <;> rfl

/-- STAT apart, an operation's result does not depend on the state: one fixed result beat, or the start of a fixed
table. -/
theorem exec_cases_of_ne_stat {i : Instr} (h : i ≠ .stat) :
    (∃ v, ∀ s, exec i s = .next (s.emitResult v)) ∨ ∃ inv, ∀ s, exec i s = .next (s.startTable inv) := by
  cases i with
  | clmul x y => exact .inl ⟨_, exec_clmul x y⟩
  | pmod z => exact .inl ⟨_, exec_pmod z⟩
  | gfmul x y => exact .inl ⟨_, exec_gfmul x y⟩
  | gfinv x => exact .inl ⟨_, exec_gfinv x⟩
  | afff x => exact .inl ⟨_, exec_afff x⟩
  | affi x => exact .inl ⟨_, exec_affi x⟩
  | sbox x => exact .inl ⟨_, exec_sbox x⟩
  | isbox x => exact .inl ⟨_, exec_isbox x⟩
  | gens => exact .inr ⟨_, exec_gens⟩
  | geni => exact .inr ⟨_, exec_geni⟩
  | stat => exact absurd rfl h

/-- An operation that is no table operation emits one result beat, the one that `commandBeats` gives its word. -/
theorem exec_eq_emitResult {w : CmdWord} {i : Instr} (hd : decode w = .legal i) (hs : i ≠ .gens) (hi : i ≠ .geni)
    (s : State) : ∃ v, commandBeats s.fault w = [.ok v] ∧ exec i s = .next (s.emitResult v) := by
  cases i with
  | clmul x y => exact ⟨_, by simp only [commandBeats, hd], exec_clmul x y s⟩
  | pmod z => exact ⟨_, by simp only [commandBeats, hd]; rfl, exec_pmod z s⟩
  | gfmul x y => exact ⟨_, by simp only [commandBeats, hd], exec_gfmul x y s⟩
  | gfinv x => exact ⟨_, by simp only [commandBeats, hd], exec_gfinv x s⟩
  | afff x => exact ⟨_, by simp only [commandBeats, hd]; rfl, exec_afff x s⟩
  | affi x => exact ⟨_, by simp only [commandBeats, hd]; rfl, exec_affi x s⟩
  | sbox x => exact ⟨_, by simp only [commandBeats, hd], exec_sbox x s⟩
  | isbox x => exact ⟨_, by simp only [commandBeats, hd], exec_isbox x s⟩
  | gens => exact absurd rfl hs
  | geni => exact absurd rfl hi
  | stat => exact ⟨_, by simp only [commandBeats, hd, statusOf_eq], exec_stat s⟩

/-- No operation writes FAULT (`10_state.md` R19). -/
theorem exec_fault {i : Instr} {s t : State} (h : exec i s = .next t) : t.fault = s.fault := by
  rcases exec_cases i s with ⟨v, hv⟩ | ⟨inv, hv⟩ <;> cases h.symm.trans hv <;> rfl

/-! ### What one EMIT does -/

/-- The table beat of an entry, field by field (`30_encoding.md` R61). -/
theorem table_beat_eq (i v : Byte) : Beat.table i v = ⟨false, decide (i = 255), i, BitVec.ofNat 16 v.toNat⟩ := by
  rw [Beat.table, zext16_eq_ofNat, beq_eq_decide]

/-- The entry by the table in progress, the forward one first (`10_state.md` R27). -/
theorem tableEntry_eq (inv : Bool) (i : Byte) : tableEntry inv i = if inv = false then sbox i else invSbox i := by
  cases inv <;> rfl

/-- A running sequencer after its entry: at rest after entry 255, else running on at the next index. -/
theorem Seq.advance_of_run {q : Seq} (hr : q.run = true) :
    q.advance = if q.idx = 255 then ⟨false, false, 0⟩ else ⟨true, q.inv, BitVec.ofNat 8 (q.idx.toNat + 1)⟩ := by
  have hidx : q.idx + 1 = BitVec.ofNat 8 (q.idx.toNat + 1) := by
    apply BitVec.eq_of_toNat_eq
    simp
  rw [Seq.advance, hr.symm, hidx]
  rfl

/-! ### The reset state -/

/-- The reset state meets the invariant: it is at rest, its trace is empty and FAULT is clear (`10_state.md` R30). -/
theorem reset_inv : State.reset.Inv where
  idle := fun _ => ⟨rfl, rfl⟩
  traceWf := fun _ hb => absurd hb List.not_mem_nil
  tableSoFar := fun hrun => absurd hrun Bool.false_ne_true
  faultShown := fun hf => absurd hf Bool.false_ne_true

/-! ### The statements -/

/-- Settles O10: the step is EMIT while the sequencer runs, and `acceptWord` while it rests. -/
theorem acceptStep : Obligations.AcceptStep := by
  unfold Obligations.AcceptStep
  refine ⟨fun s hc hr => ⟨_, step_emit hc hr, by simp⟩, fun s w ws hc hr hw => ?_⟩
  have hstep : step s = acceptWord w { s with words := ws, turns := s.turns.tail } :=
    dropTurn_dropWord_eq hw ▸ step_accept hc hr hw
  refine ⟨fun c hd => ?_, fun hd => ?_, fun hd => ?_, fun i hd hs hi => ?_⟩
  · exact hstep.trans (acceptWord_illegal hd _)
  · exact hstep.trans ((acceptWord_legal hd _).trans (exec_gens _))
  · exact hstep.trans ((acceptWord_legal hd _).trans (exec_geni _))
  · obtain ⟨v, hbeats, hexec⟩ := exec_eq_emitResult hd hs hi { s with words := ws, turns := s.turns.tail }
    exact ⟨v, hbeats, hstep.trans ((acceptWord_legal hd _).trans hexec)⟩

/-- Settles O22: FAULT by the cases of a step; an operation other than STAT, and EMIT, run alike with FAULT changed. -/
theorem faultFlagRule : Obligations.FaultFlagRule := by
  unfold Obligations.FaultFlagRule
  refine ⟨rfl, fun s t ht => ?_, fun i s f hi => ?_, fun s t hr hc ht f => ?_⟩
  · rcases step_cases s with ⟨hk, hs⟩ | ⟨hk, _, hs⟩ | ⟨w, ws, c, hk, _, _, hd, hs⟩ | ⟨w, ws, i, hk, _, _, hd, hs⟩ |
      ⟨hk, _, _, hs⟩ <;> rw [hk]
    · cases ht.symm.trans hs
      rfl
    · cases ht.symm.trans hs
      rfl
    · cases ht.symm.trans hs
      simp [decodeLegal_of_illegal hd]
    · simpa [decodeLegal_eq_some.mpr hd] using exec_fault (hs.symm.trans ht)
    · cases ht.symm.trans hs
      rfl
  · rcases exec_cases_of_ne_stat hi with ⟨v, hv⟩ | ⟨inv, hv⟩
    · exact ⟨_, hv s, hv { s with fault := f }⟩
    · exact ⟨_, hv s, hv { s with fault := f }⟩
  · cases ht.symm.trans (step_emit hc hr)
    exact step_emit (s := { s with fault := f }) hc hr

/-- Settles O11: the step is `emitEntry`, and its beat and its sequencer are those of R27. -/
theorem emitStep : Obligations.EmitStep := by
  unfold Obligations.EmitStep
  intro s hc hr
  rw [step_emit hc hr]
  refine congrArg Host.Outcome.next (State.ext_fields ?_ rfl ?_ rfl rfl)
  · exact Seq.advance_of_run hr
  · simp [table_beat_eq, tableEntry_eq]

/-- Settles O13: ACCEPT needs a resting sequencer and EMIT a running one, and the next kind is an enabled one. -/
theorem stepTakesOneEnabledKind : Obligations.StepTakesOneEnabledKind := by
  unfold Obligations.StepTakesOneEnabledKind
  intro s
  refine ⟨rfl, Iff.rfl, fun w => enabled_accept_iff, fun w ⟨haccept, hrun⟩ => ?_,
    fun k hk => ⟨enabled_of_nextKind hk, step_eq_take hk⟩, nextKind_eq_none_iff⟩
  obtain ⟨hrest, _⟩ := enabled_accept_iff.mp haccept
  exact absurd (hrest.symm.trans hrun) Bool.false_ne_true

/-- Settles O19. -/
theorem resetStateMeetsInvariant : Obligations.ResetStateMeetsInvariant := by
  unfold Obligations.ResetStateMeetsInvariant
  exact ⟨rfl, rfl, rfl, rfl, rfl, reset_inv⟩

end Sys2Proof.Machine
end

section
/-!
PROOFS. The statements of `30_encoding.md`: the decoder by operation code (R53, R54, R57), the opcode map (R56), the
layout of a beat (R60) and its three kinds (R61).
-/

namespace Sys2Proof.Machine

/-! ### The fields of a word as numbers -/

/-- OP as a number decides OP as a field (`30_encoding.md` R52). -/
theorem opField_eq_iff {w : CmdWord} {k : Nat} (hk : k < 16) :
    opField w = BitVec.ofNat 4 k ↔ w.toNat / 65536 = k := by
  rw [← BitVec.toNat_inj, opField_toNat, BitVec.toNat_ofNat, Nat.mod_eq_of_lt (by omega)]

/-- X as the bit vector of its number. -/
theorem xField_eq_ofNat (w : CmdWord) : xField w = BitVec.ofNat 8 (w.toNat % 256) := by
  rw [← xField_toNat, BitVec.ofNat_toNat, BitVec.setWidth_eq]

/-- Y as the bit vector of its number. -/
theorem yField_eq_ofNat (w : CmdWord) : yField w = BitVec.ofNat 8 (w.toNat / 256 % 256) := by
  rw [← yField_toNat, BitVec.ofNat_toNat, BitVec.setWidth_eq]

/-- Z as the bit vector of its number. -/
theorem zField_eq_ofNat (w : CmdWord) : zField w = BitVec.ofNat 16 (w.toNat % 65536) := by
  rw [← zField_toNat, BitVec.ofNat_toNat, BitVec.setWidth_eq]

/-- Y is zero exactly if bits 15:8 are, as a number. -/
theorem yField_eq_zero_iff_toNat (w : CmdWord) : yField w = 0 ↔ w.toNat / 256 % 256 = 0 := by
  rw [← BitVec.toNat_inj, yField_toNat]
  rfl

/-- Z is zero exactly if bits 15:0 are, as a number. -/
theorem zField_eq_zero_iff_toNat (w : CmdWord) : zField w = 0 ↔ w.toNat % 65536 = 0 := by
  rw [← BitVec.toNat_inj, zField_toNat]
  rfl

/-- A word built from OP, Y and X determines the three. -/
theorem wordOfFields_inj {op op' : BitVec 4} {y y' x x' : Byte} :
    wordOfFields op y x = wordOfFields op' y' x' ↔ op = op' ∧ y = y' ∧ x = x' := by
  constructor
  · intro h
    have hop := congrArg opField h
    have hy := congrArg yField h
    have hx := congrArg xField h
    simp only [opField_wordOfFields, yField_wordOfFields, xField_wordOfFields] at hop hy hx
    exact ⟨hop, hy, hx⟩
  · rintro ⟨rfl, rfl, rfl⟩
    rfl

end Sys2Proof.Machine

namespace Sys2Proof

/-! ### The decoder, an equation per operation code -/

theorem decode_clmul {w : CmdWord} (h : Machine.opField w = 0x1#4) :
    decode w = .legal (.clmul (Machine.xField w) (Machine.yField w)) := by
  simp only [decode, h]

theorem decode_pmod {w : CmdWord} (h : Machine.opField w = 0x2#4) : decode w = .legal (.pmod (Machine.zField w)) := by
  simp only [decode, h]

theorem decode_gfmul {w : CmdWord} (h : Machine.opField w = 0x3#4) :
    decode w = .legal (.gfmul (Machine.xField w) (Machine.yField w)) := by
  simp only [decode, h]

theorem decode_gfinv {w : CmdWord} (h : Machine.opField w = 0x4#4) :
    decode w = decodeOneOperand w (.gfinv (Machine.xField w)) := by
  simp only [decode, h]

theorem decode_afff {w : CmdWord} (h : Machine.opField w = 0x5#4) :
    decode w = decodeOneOperand w (.afff (Machine.xField w)) := by
  simp only [decode, h]

theorem decode_affi {w : CmdWord} (h : Machine.opField w = 0x6#4) :
    decode w = decodeOneOperand w (.affi (Machine.xField w)) := by
  simp only [decode, h]

theorem decode_sbox {w : CmdWord} (h : Machine.opField w = 0x7#4) :
    decode w = decodeOneOperand w (.sbox (Machine.xField w)) := by
  simp only [decode, h]

theorem decode_isbox {w : CmdWord} (h : Machine.opField w = 0x8#4) :
    decode w = decodeOneOperand w (.isbox (Machine.xField w)) := by
  simp only [decode, h]

theorem decode_gens {w : CmdWord} (h : Machine.opField w = 0x9#4) : decode w = decodeNoOperand w .gens := by
  simp only [decode, h]

theorem decode_geni {w : CmdWord} (h : Machine.opField w = 0xA#4) : decode w = decodeNoOperand w .geni := by
  simp only [decode, h]

theorem decode_stat {w : CmdWord} (h : Machine.opField w = 0xB#4) : decode w = decodeNoOperand w .stat := by
  simp only [decode, h]

/-- Every reserved operation code is illegal (`30_encoding.md` R54). -/
theorem decode_reserved {w : CmdWord} (h : w.toNat / 65536 = 0 ∨ 12 ≤ w.toNat / 65536) :
    decode w = .illegal .reservedOp := by
  unfold decode
  split
  case h_12 => rfl
  all_goals
    rename_i hop
    rw [Machine.opField_eq_iff (by decide)] at hop
    omega

/-- A one-operand format is illegal exactly for a nonzero Y (`30_encoding.md` R53). -/
theorem decodeOneOperand_eq_illegal {w : CmdWord} {i : Instr} {c : IllegalCause} :
    decodeOneOperand w i = .illegal c ↔ w.toNat / 256 % 256 ≠ 0 ∧ .nonzeroY = c := by
  unfold decodeOneOperand
  rw [ne_eq, ← Machine.yField_eq_zero_iff_toNat]
  split <;> simp_all

/-- A no-operand format is illegal exactly for a nonzero Z (`30_encoding.md` R53). -/
theorem decodeNoOperand_eq_illegal {w : CmdWord} {i : Instr} {c : IllegalCause} :
    decodeNoOperand w i = .illegal c ↔ w.toNat % 65536 ≠ 0 ∧ .nonzeroZ = c := by
  unfold decodeNoOperand
  rw [ne_eq, ← Machine.zField_eq_zero_iff_toNat]
  split <;> simp_all

/-- The verdict by OP: two-operand and wide formats are legal, the other two formats check their zero bits, and the
remaining codes are reserved (`30_encoding.md` R57). -/
theorem decode_cases (w : CmdWord) :
    ((1 ≤ w.toNat / 65536 ∧ w.toNat / 65536 ≤ 3) ∧ ∃ i, decode w = .legal i) ∨
    ((4 ≤ w.toNat / 65536 ∧ w.toNat / 65536 ≤ 8) ∧ ∃ i, decode w = decodeOneOperand w i) ∨
    ((9 ≤ w.toNat / 65536 ∧ w.toNat / 65536 ≤ 11) ∧ ∃ i, decode w = decodeNoOperand w i) ∨
    ((w.toNat / 65536 = 0 ∨ 12 ≤ w.toNat / 65536) ∧ decode w = .illegal .reservedOp) := by
  have hop {k : Nat} (h : w.toNat / 65536 = k) (hk : k < 16) : Machine.opField w = BitVec.ofNat 4 k :=
    (Machine.opField_eq_iff hk).mpr h
  by_cases hres : w.toNat / 65536 = 0 ∨ 12 ≤ w.toNat / 65536
  · exact .inr (.inr (.inr ⟨hres, decode_reserved hres⟩))
  · obtain ⟨k, hk⟩ : ∃ k, w.toNat / 65536 = k := ⟨_, rfl⟩
    rw [hk] at hres ⊢
    have hlow : 1 ≤ k := by omega
    have hhigh : k ≤ 11 := by omega
    interval_cases k
    · exact .inl ⟨by decide, _, decode_clmul (hop hk (by decide))⟩
    · exact .inl ⟨by decide, _, decode_pmod (hop hk (by decide))⟩
    · exact .inl ⟨by decide, _, decode_gfmul (hop hk (by decide))⟩
    · exact .inr (.inl ⟨by decide, _, decode_gfinv (hop hk (by decide))⟩)
    · exact .inr (.inl ⟨by decide, _, decode_afff (hop hk (by decide))⟩)
    · exact .inr (.inl ⟨by decide, _, decode_affi (hop hk (by decide))⟩)
    · exact .inr (.inl ⟨by decide, _, decode_sbox (hop hk (by decide))⟩)
    · exact .inr (.inl ⟨by decide, _, decode_isbox (hop hk (by decide))⟩)
    · exact .inr (.inr (.inl ⟨by decide, _, decode_gens (hop hk (by decide))⟩))
    · exact .inr (.inr (.inl ⟨by decide, _, decode_geni (hop hk (by decide))⟩))
    · exact .inr (.inr (.inl ⟨by decide, _, decode_stat (hop hk (by decide))⟩))

/-- The words with a reserved operation code (`30_encoding.md` R54). -/
theorem decode_eq_reservedOp_iff {w : CmdWord} :
    decode w = .illegal .reservedOp ↔ w.toNat / 65536 = 0 ∨ 12 ≤ w.toNat / 65536 := by
  rcases decode_cases w with ⟨hop, i, hd⟩ | ⟨hop, i, hd⟩ | ⟨hop, i, hd⟩ | ⟨hop, hd⟩ <;>
    simp [hd, decodeOneOperand_eq_illegal, decodeNoOperand_eq_illegal] <;> omega

/-- The words of a one-operand format whose bits 15:8 are not zero (`30_encoding.md` R53). -/
theorem decode_eq_nonzeroY_iff {w : CmdWord} :
    decode w = .illegal .nonzeroY ↔
      4 ≤ w.toNat / 65536 ∧ w.toNat / 65536 ≤ 8 ∧ w.toNat / 256 % 256 ≠ 0 := by
  rcases decode_cases w with ⟨hop, i, hd⟩ | ⟨hop, i, hd⟩ | ⟨hop, i, hd⟩ | ⟨hop, hd⟩ <;>
    simp [hd, decodeOneOperand_eq_illegal, decodeNoOperand_eq_illegal] <;> omega

/-- The words of a no-operand format whose bits 15:0 are not zero (`30_encoding.md` R53). -/
theorem decode_eq_nonzeroZ_iff {w : CmdWord} :
    decode w = .illegal .nonzeroZ ↔
      9 ≤ w.toNat / 65536 ∧ w.toNat / 65536 ≤ 11 ∧ w.toNat % 65536 ≠ 0 := by
  rcases decode_cases w with ⟨hop, i, hd⟩ | ⟨hop, i, hd⟩ | ⟨hop, i, hd⟩ | ⟨hop, hd⟩ <;>
    simp [hd, decodeOneOperand_eq_illegal, decodeNoOperand_eq_illegal] <;> omega

/-- Formats F2 and FZ have no bit that must be zero (`30_encoding.md` R53). -/
theorem decode_legal_of_op_le_three {w : CmdWord} (h₁ : 1 ≤ w.toNat / 65536) (h₃ : w.toNat / 65536 ≤ 3) :
    ∃ i, decode w = .legal i := by
  rcases decode_cases w with ⟨_, hlegal⟩ | ⟨hop, _⟩ | ⟨hop, _⟩ | ⟨hop, _⟩
  · exact hlegal
  all_goals omega

/-! ### The opcode map -/

/-- The mask of a format: OP, and the bits that must be zero (`30_encoding.md` R56). -/
def Format.mask : Format → CmdWord
  | .f2 => 0xF0000
  | .fz => 0xF0000
  | .f1 => 0xFFF00
  | .f0 => 0xFFFFF

/-- The must-be-zero field of a format is zero (`30_encoding.md` R53). -/
def Format.ZeroBits (w : CmdWord) : Format → Prop
  | .f2 => True
  | .fz => True
  | .f1 => Machine.yField w = 0
  | .f0 => Machine.zField w = 0

/-- Every row's match is its OP alone and its mask is its format's. -/
theorem opcodeTable_bits : ∀ r ∈ opcodeTable, r.matchBits = Machine.wordOfFields r.op 0 0 ∧
    r.maskBits = r.format.mask := by
  decide

/-- The rows differ in OP. -/
theorem opcodeTable_op_injective : ∀ r ∈ opcodeTable, ∀ r' ∈ opcodeTable, r.op = r'.op → r = r' := by
  decide

theorem rowOf_mem_opcodeTable (i : Instr) : rowOf i ∈ opcodeTable := by
  cases i <;> simp [rowOf, opcodeTable]

/-- A word under a format's mask is an OP alone exactly if it has that OP and the format's zero bits. -/
theorem and_mask_eq_iff (w : CmdWord) (op : BitVec 4) (f : Format) :
    w &&& f.mask = Machine.wordOfFields op 0 0 ↔ Machine.opField w = op ∧ f.ZeroBits w := by
  cases f with
  | f2 | fz =>
    rw [Format.mask, Laws.RowSelected.mask_op, Machine.wordOfFields_inj]
    simp [Format.ZeroBits]
  | f1 =>
    rw [Format.mask, Laws.RowSelected.mask_opY, Machine.wordOfFields_inj]
    simp [Format.ZeroBits]
  | f0 =>
    have hall : w &&& Format.f0.mask = w := BitVec.and_allOnes
    rw [hall, Format.ZeroBits, Machine.zField_eq_zero_iff, ← Machine.wordOfFields_inj, Machine.wordOfFields_fields]

/-- A word selects a row exactly if it has the row's OP and the zero bits of the row's format. -/
theorem row_selected_iff {r : OpRow} (hr : r ∈ opcodeTable) (w : CmdWord) :
    w &&& r.maskBits = r.matchBits ↔ Machine.opField w = r.op ∧ r.format.ZeroBits w := by
  obtain ⟨hmatch, hmask⟩ := opcodeTable_bits r hr
  rw [hmatch, hmask, and_mask_eq_iff]

/-- A word that decodes to an operation has the OP of its row and the zero bits of the row's format. -/
theorem fields_of_decode {w : CmdWord} {i : Instr} (h : decode w = .legal i) :
    Machine.opField w = (rowOf i).op ∧ (rowOf i).format.ZeroBits w := by
  unfold decode at h
  split at h <;> rename_i hop
  case h_12 => cases h
  case h_1 | h_2 | h_3 =>
    cases h
    exact ⟨hop, trivial⟩
  case h_4 | h_5 | h_6 | h_7 | h_8 =>
    obtain ⟨hy, rfl⟩ := decodeOneOperand_eq_legal.mp h
    exact ⟨hop, hy⟩
  all_goals
    obtain ⟨hz, rfl⟩ := decodeNoOperand_eq_legal.mp h
    exact ⟨hop, hz⟩

/-- A word with the OP of a row and the zero bits of its format decodes to an operation of that row. -/
theorem decode_of_fields {r : OpRow} (hr : r ∈ opcodeTable) {w : CmdWord} (hop : Machine.opField w = r.op)
    (hzero : r.format.ZeroBits w) : ∃ i, decode w = .legal i ∧ rowOf i = r := by
  simp only [opcodeTable, List.mem_cons, List.not_mem_nil, or_false] at hr
  rcases hr with rfl | rfl | rfl | rfl | rfl | rfl | rfl | rfl | rfl | rfl | rfl
  · exact ⟨_, decode_clmul hop, rfl⟩
  · exact ⟨_, decode_pmod hop, rfl⟩
  · exact ⟨_, decode_gfmul hop, rfl⟩
  · exact ⟨_, (decode_gfinv hop).trans (decodeOneOperand_eq_legal.mpr ⟨hzero, rfl⟩), rfl⟩
  · exact ⟨_, (decode_afff hop).trans (decodeOneOperand_eq_legal.mpr ⟨hzero, rfl⟩), rfl⟩
  · exact ⟨_, (decode_affi hop).trans (decodeOneOperand_eq_legal.mpr ⟨hzero, rfl⟩), rfl⟩
  · exact ⟨_, (decode_sbox hop).trans (decodeOneOperand_eq_legal.mpr ⟨hzero, rfl⟩), rfl⟩
  · exact ⟨_, (decode_isbox hop).trans (decodeOneOperand_eq_legal.mpr ⟨hzero, rfl⟩), rfl⟩
  · exact ⟨_, (decode_gens hop).trans (decodeNoOperand_eq_legal.mpr ⟨hzero, rfl⟩), rfl⟩
  · exact ⟨_, (decode_geni hop).trans (decodeNoOperand_eq_legal.mpr ⟨hzero, rfl⟩), rfl⟩
  · exact ⟨_, (decode_stat hop).trans (decodeNoOperand_eq_legal.mpr ⟨hzero, rfl⟩), rfl⟩

/-! ### The word of a beat -/

/-- A one-bit field shifted to its place in the word. -/
theorem flag_shiftLeft_toNat (f : Bool) {k : Nat} (hk : k < 26) :
    ((BitVec.ofBool f).setWidth 26 <<< k).toNat = f.toNat <<< k := by
  have hlt : 2 ^ k < 2 ^ 26 := Nat.pow_lt_pow_right (by decide) hk
  cases f with
  | false => simp
  | true => simpa [Nat.shiftLeft_eq] using hlt

/-- The number of a beat's word, its four fields joined (`30_encoding.md` R60). -/
theorem Beat.toWord_toNat (b : Beat) : b.toWord.toNat =
    (b.err.toNat <<< 25) ||| (b.last.toNat <<< 24) ||| (b.idx.toNat <<< 16) ||| b.data.toNat := by
  have hidx : (b.idx.setWidth 26 <<< 16).toNat = b.idx.toNat <<< 16 := by
    have := b.idx.isLt
    simp only [BitVec.toNat_shiftLeft, BitVec.toNat_setWidth, Nat.shiftLeft_eq]
    omega
  have hdata : (b.data.setWidth 26).toNat = b.data.toNat := by
    have := b.data.isLt
    rw [BitVec.toNat_setWidth]
    omega
  rw [Beat.toWord, BitVec.toNat_or, BitVec.toNat_or, BitVec.toNat_or, flag_shiftLeft_toNat _ (by decide),
    flag_shiftLeft_toNat _ (by decide), hidx, hdata]

/-- DATA is in bits 15:0 of a beat's word. -/
theorem Beat.getLsbD_toWord_data (b : Beat) {i : Nat} (hi : i < 16) : b.toWord.getLsbD i = b.data.getLsbD i := by
  have h₂₆ : i < 26 := by omega
  have h₂₅ : i < 25 := by omega
  have h₂₄ : i < 24 := by omega
  simp [Beat.toWord, hi, h₂₄, h₂₅, h₂₆]

/-- IDX is in bits 23:16 of a beat's word, above DATA. -/
theorem Beat.getLsbD_toWord_idx (b : Beat) {i : Nat} (hi : i < 8) : b.toWord.getLsbD (16 + i) = b.idx.getLsbD i := by
  have h₂₆ : 16 + i < 26 := by omega
  have h₂₅ : 16 + i < 25 := by omega
  have h₂₄ : 16 + i < 24 := by omega
  simp [Beat.toWord, h₂₄, h₂₅, h₂₆]

/-- LAST is bit 24 of a beat's word. -/
theorem Beat.getLsbD_toWord_last (b : Beat) : b.toWord.getLsbD 24 = b.last := by
  simp [Beat.toWord]

/-- ERR is bit 25 of a beat's word. -/
theorem Beat.getLsbD_toWord_err (b : Beat) : b.toWord.getLsbD 25 = b.err := by
  simp [Beat.toWord]

theorem Beat.ofWord_toWord (b : Beat) : Beat.ofWord b.toWord = b := by
  have hidx : b.toWord.extractLsb' 16 8 = b.idx := by
    refine BitVec.eq_of_getLsbD_eq fun i hi => ?_
    rw [BitVec.getLsbD_extractLsb', Beat.getLsbD_toWord_idx b hi, decide_eq_true hi, Bool.true_and]
  have hdata : b.toWord.extractLsb' 0 16 = b.data := by
    refine BitVec.eq_of_getLsbD_eq fun i hi => ?_
    rw [BitVec.getLsbD_extractLsb', Nat.zero_add, Beat.getLsbD_toWord_data b hi, decide_eq_true hi, Bool.true_and]
  rw [Beat.ofWord, Beat.getLsbD_toWord_err, Beat.getLsbD_toWord_last, hidx, hdata]

theorem Beat.toWord_ofWord (w : BeatWord) : (Beat.ofWord w).toWord = w := by
  refine BitVec.eq_of_getLsbD_eq fun i hi => ?_
  have hplace : i < 16 ∨ (∃ j < 8, i = 16 + j) ∨ i = 24 ∨ i = 25 := by
    by_cases h : 16 ≤ i ∧ i < 24
    · exact .inr (.inl ⟨i - 16, by omega⟩)
    · omega
  rcases hplace with h | ⟨j, hj, rfl⟩ | rfl | rfl
  · simp [Beat.getLsbD_toWord_data _ h, Beat.ofWord, h]
  · simp [Beat.getLsbD_toWord_idx _ hj, Beat.ofWord, hj]
  · exact Beat.getLsbD_toWord_last _
  · exact Beat.getLsbD_toWord_err _

end Sys2Proof

namespace Sys2Proof.Machine

/-! ### The width of a result -/

/-- The product of a polynomial of at most `m + 1` bits and one of at most `k` bits has at most `k + m` bits. -/
theorem clmul_lt_two_pow {x y m k : Nat} (hx : x < 2 ^ (m + 1)) (hy : y < 2 ^ k) : clmul x y < 2 ^ (k + m) := by
  have hbelow : ∀ n ≤ m + 1, clmulBelow x y n < 2 ^ (k + m) := by
    intro n
    induction n with
    | zero => exact fun _ => Nat.two_pow_pos _
    | succ n ih =>
      intro hn
      have hshift : y <<< n < 2 ^ (k + m) := calc
        y <<< n = y * 2 ^ n := Nat.shiftLeft_eq y n
        _ < 2 ^ k * 2 ^ n := Nat.mul_lt_mul_of_pos_right hy (Nat.two_pow_pos n)
        _ = 2 ^ (k + n) := (Nat.pow_add 2 k n).symm
        _ ≤ 2 ^ (k + m) := Nat.pow_le_pow_right (by decide) (by omega)
      rw [clmulBelow_succ]
      refine Nat.xor_lt_two_pow (ih (by omega)) ?_
      split
      · exact hshift
      · exact Nat.two_pow_pos _
  exact hbelow _ (bitlen_le_iff.mpr hx)

/-- With enough fuel the reducer ends below the modulus's bit-length (`40_polynomial.md` R73). -/
theorem bitlen_pmodLoop_lt {m : Nat} (hm : 0 < m) {fuel r : Nat} (hr : bitlen r ≤ fuel) :
    bitlen (pmodLoop m fuel r) < bitlen m := by
  induction fuel generalizing r with
  | zero =>
    have := bitlen_pos_iff.mpr hm
    rw [pmodLoop]
    omega
  | succ fuel ih =>
    rw [pmodLoop]
    split
    next hle =>
      have := bitlen_reduce_lt hm hle
      exact ih (by omega)
    next hlt => omega

/-- The remainder has fewer bits than the modulus (`40_polynomial.md` R75 law 1). -/
theorem bitlen_pmod_lt (x : Nat) {m : Nat} (hm : 0 < m) : bitlen (pmod x m hm) < bitlen m :=
  bitlen_pmodLoop_lt hm (Nat.le_refl _)

/-- The result of CLMUL has at most 15 bits (`40_polynomial.md` R71). -/
theorem clmul_byte_lt (x y : Byte) : clmul x.toNat y.toNat < 2 ^ 15 :=
  clmul_lt_two_pow (m := 7) (k := 8) x.isLt y.isLt

/-- The result of PMOD has at most 8 bits (`40_polynomial.md` R74). -/
theorem pmod_modulus_lt (x : Nat) : pmod x modulus modulus_pos < 2 ^ 8 := by
  have h := bitlen_pmod_lt x modulus_pos
  rw [show bitlen modulus = 9 by decide] at h
  exact bitlen_le_iff.mp (by omega)

/-- The DATA an operation may answer: 15 bits for CLMUL, 1 bit for STAT, else 8 bits (`30_encoding.md` R61). -/
def Fits (i : Instr) (v : Wide) : Prop :=
  v.toNat < 2 ^ 15 ∧ ((∀ x y, i ≠ .clmul x y) → v.toNat < 2 ^ 8) ∧ (i = .stat → v.toNat < 2)

/-- Eight bits fit every operation but STAT. -/
theorem fits_of_lt {i : Instr} {v : Wide} (hs : i ≠ .stat) (hv : v.toNat < 2 ^ 8) : Fits i v :=
  ⟨by omega, fun _ => hv, fun h => absurd h hs⟩

/-- A byte, zero-extended, fits every operation but STAT. -/
theorem fits_zext16 {i : Instr} (hs : i ≠ .stat) (v : Byte) : Fits i (zext16 v) :=
  fits_of_lt hs (by rw [zext16_toNat]; exact v.isLt)

/-- A single-result operation emits one result beat whose DATA fits it. -/
theorem exec_fits {i : Instr} (hs : i ≠ .gens) (hi : i ≠ .geni) (s : State) :
    ∃ v, exec i s = .next (s.emitResult v) ∧ Fits i v := by
  cases i with
  | clmul x y =>
    refine ⟨_, exec_clmul x y s, ?_, fun h => absurd rfl (h x y), nofun⟩
    have := clmul_byte_lt x y
    rw [BitVec.toNat_ofNat]
    omega
  | pmod z =>
    refine ⟨_, exec_pmod z s, fits_of_lt (by nofun) ?_⟩
    have := pmod_modulus_lt z.toNat
    rw [BitVec.toNat_ofNat]
    omega
  | gfmul x y => exact ⟨_, exec_gfmul x y s, fits_zext16 (by nofun) _⟩
  | gfinv x => exact ⟨_, exec_gfinv x s, fits_zext16 (by nofun) _⟩
  | afff x => exact ⟨_, exec_afff x s, fits_zext16 (by nofun) _⟩
  | affi x => exact ⟨_, exec_affi x s, fits_zext16 (by nofun) _⟩
  | sbox x => exact ⟨_, exec_sbox x s, fits_zext16 (by nofun) _⟩
  | isbox x => exact ⟨_, exec_isbox x s, fits_zext16 (by nofun) _⟩
  | gens => exact absurd rfl hs
  | geni => exact absurd rfl hi
  | stat =>
    have hbit : (statusOf s.fault).toNat < 2 := by cases s.fault <;> decide
    exact ⟨_, exec_stat s, by omega, fun _ => by omega, fun _ => hbit⟩

/-- GENS and GENI emit no beat at their ACCEPT (`10_state.md` R26). -/
theorem exec_table_trace {i : Instr} {s t : State} (hi : i = .gens ∨ i = .geni) (h : exec i s = .next t) :
    t.trace = s.trace := by
  rcases hi with rfl | rfl
  · cases (exec_gens s).symm.trans h
    rfl
  · cases (exec_geni s).symm.trans h
    rfl

/-! ### The statements -/

/-- Settles O2: the decoder's equations, with each field read as its number. -/
theorem decodeEveryWord : Obligations.DecodeEveryWord := by
  unfold Obligations.DecodeEveryWord
  intro w
  have hop {k : Nat} (hk : k < 16) (h : w.toNat / 65536 = k) : opField w = BitVec.ofNat 4 k := (opField_eq_iff hk).mpr h
  simp only [← xField_eq_ofNat, ← yField_eq_ofNat, ← zField_eq_ofNat]
  exact ⟨fun h => decode_clmul (hop (by decide) h), fun h => decode_pmod (hop (by decide) h),
    fun h => decode_gfmul (hop (by decide) h), fun h => decode_gfinv (hop (by decide) h),
    fun h => decode_afff (hop (by decide) h), fun h => decode_affi (hop (by decide) h),
    fun h => decode_sbox (hop (by decide) h), fun h => decode_isbox (hop (by decide) h),
    fun h => decode_gens (hop (by decide) h), fun h => decode_geni (hop (by decide) h),
    fun h => decode_stat (hop (by decide) h), decode_reserved⟩

/-- Settles O3: selecting a row is having its OP and its format's zero bits, which is what the decoder checks. -/
theorem opcodeMapAgreesWithDecode : Obligations.OpcodeMapAgreesWithDecode := by
  unfold Obligations.OpcodeMapAgreesWithDecode
  refine ⟨by decide, fun w => ⟨fun i hd => ?_, fun r hr hsel => ?_, fun r hr r' hr' hsel hsel' => ?_⟩⟩
  · have hmem := rowOf_mem_opcodeTable i
    exact ⟨hmem, (row_selected_iff hmem w).mpr (fields_of_decode hd)⟩
  · obtain ⟨hop, hzero⟩ := (row_selected_iff hr w).mp hsel
    exact decode_of_fields hr hop hzero
  · obtain ⟨hop, _⟩ := (row_selected_iff hr w).mp hsel
    obtain ⟨hop', _⟩ := (row_selected_iff hr' w).mp hsel'
    exact opcodeTable_op_injective r hr r' hr' (hop.symm.trans hop')

/-- Settles O4: the words of each cause, and `acceptWord` of an illegal word. -/
theorem reservedAndNonzeroBitsIllegal : Obligations.ReservedAndNonzeroBitsIllegal := by
  unfold Obligations.ReservedAndNonzeroBitsIllegal
  intro w op
  have hreserved : op = 0 ∨ 12 ≤ op ↔ op = 0x0 ∨ op = 0xC ∨ op = 0xD ∨ op = 0xE ∨ op = 0xF := by
    have := w.isLt
    omega
  exact ⟨decode_eq_reservedOp_iff.trans hreserved, decode_eq_nonzeroY_iff, decode_eq_nonzeroZ_iff,
    decode_legal_of_op_le_three, fun hw => by rw [hw]; rfl, fun c hd s => acceptWord_illegal hd s⟩

/-- Settles O7: the bits of a beat's word give each field back, and the fields' bits are all of the word's. -/
theorem beatWordLayout : Obligations.BeatWordLayout := by
  unfold Obligations.BeatWordLayout
  exact ⟨Beat.toWord_toNat, Beat.ofWord_toWord, Beat.toWord_ofWord, fun _ _ => rfl⟩

/-- Settles O14: by the cases of a step; RESET, an idle turn and the ACCEPT of a table operation append no beat. -/
theorem threeKindsOfBeat : Obligations.ThreeKindsOfBeat := by
  unfold Obligations.ThreeKindsOfBeat
  intro s t ht
  rcases step_cases s with ⟨_, hs⟩ | ⟨hk, _, hs⟩ | ⟨w, _, c, hk, _, _, hd, hs⟩ | ⟨w, _, i, hk, _, _, hd, hs⟩ |
    ⟨_, _, _, hs⟩
  case inl | inr.inr.inr.inr =>
    cases ht.symm.trans hs
    exact .inl rfl
  case inr.inl =>
    cases ht.symm.trans hs
    exact .inr ⟨_, rfl, .inr (.inl ⟨_, hk, table_beat_eq _ _⟩)⟩
  case inr.inr.inl =>
    cases ht.symm.trans hs
    exact .inr ⟨_, rfl, .inr (.inr ⟨w, c, hk, hd, rfl⟩)⟩
  case inr.inr.inr.inl =>
    by_cases htable : i = .gens ∨ i = .geni
    · exact .inl (exec_table_trace (s := s.dropTurn.dropWord) htable (hs.symm.trans ht))
    · obtain ⟨hgens, hgeni⟩ := not_or.mp htable
      obtain ⟨v, hexec, hv⟩ := exec_fits hgens hgeni s.dropTurn.dropWord
      cases ht.symm.trans (hs.trans hexec)
      exact .inr ⟨_, rfl, .inl ⟨w, i, v, hk, hd, hgens, hgeni, rfl, hv⟩⟩

end Sys2Proof.Machine
end

section
/-!
PROOFS. The statements of `40_polynomial.md` about the multiplier (R70, R71) and the reducer (R73, R74): the bits of a
product, the remainder, and the operations CLMUL and PMOD.
-/

namespace Sys2Proof.Machine

/-! ### Counting a predicate over an initial segment -/

/-- The positions 0 to `k` may be counted from either end. -/
theorem countP_range_reflect (p : Nat → Bool) (k : Nat) :
    (List.range (k + 1)).countP (fun i => p (k - i)) = (List.range (k + 1)).countP p := by
  rw [← List.countP_reverse, List.range_eq_range', List.reverse_range', List.countP_map]
  refine (List.countP_congr fun i hi => ?_).trans (by rw [List.range_eq_range'])
  have := List.mem_range.mp hi
  rw [Function.comp_apply, show k - (0 + (k + 1) - 1 - i) = i by omega]

/-- A predicate that holds at most at `m` is counted once or not at all. -/
theorem countP_range_of_only {p : Nat → Bool} {m n : Nat} (hm : m < n) (h : ∀ i < n, i ≠ m → p i = false) :
    (List.range n).countP p = (p m).toNat := by
  have hcongr : (List.range n).countP p = (List.range n).countP (fun i => p m && i == m) :=
    List.countP_congr fun i hi => by
      by_cases him : i = m
      · simp [him]
      · simp [h i (List.mem_range.mp hi) him, him]
  rw [hcongr]
  cases p m with
  | false => simp
  | true =>
    have := List.count_eq_one_of_mem List.nodup_range (List.mem_range.mpr hm)
    simpa [List.count] using this

/-- A predicate symmetric about the middle of 0 to `k` is counted in pairs, but for the middle itself. -/
theorem countP_range_mod_two_of_symm {p : Nat → Bool} {k : Nat} (h : ∀ i ≤ k, p (k - i) = p i) :
    ((List.range (k + 1)).countP p % 2 == 1) = (k % 2 == 0 && p (k / 2)) := by
  induction k using Nat.twoStepInduction generalizing p with
  | zero => cases hp : p 0 <;> simp [hp]
  | one =>
    have h₀ : p 1 = p 0 := h 0 (by decide)
    cases hp : p 0 <;> simp [List.range_succ, h₀, hp]
  | more k ih _ =>
    have hends : p (k + 2) = p 0 := h 0 (by omega)
    have hinner : ∀ i ≤ k, p (k - i + 1) = p (i + 1) := fun i hi => by
      rw [← h (i + 1) (by omega)]
      congr 1
      omega
    have hpeel : (List.range (k + 2 + 1)).countP p =
        (List.range (k + 1)).countP (fun i => p (i + 1)) + 2 * (p 0).toNat := by
      rw [List.range_succ, List.countP_append, List.range_succ_eq_map, List.countP_cons, List.countP_map,
        List.countP_singleton, hends]
      cases p 0 <;> simp [Function.comp_def]
    rw [hpeel, Nat.add_mul_mod_self_left, ih hinner, Nat.add_mod_right, Nat.add_div_right k (by decide)]

/-! ### The product -/

/-- The accumulator as the loop over the bits of `x` (`40_polynomial.md` R70). -/
theorem clmulBelow_eq_foldl (x y n : Nat) :
    clmulBelow x y n = (List.range n).foldl (fun acc i => if x.testBit i then acc ^^^ (y <<< i) else acc) 0 := by
  induction n with
  | zero => rfl
  | succ n ih => rw [clmulBelow, ih, List.range_succ, List.foldl_append, List.foldl_cons, List.foldl_nil]

/-- Bit `k` of the accumulator while the iterations reach it: the parity of the products so far. -/
theorem testBit_clmulBelow {x y n k : Nat} (hn : n ≤ k + 1) :
    (clmulBelow x y n).testBit k =
      ((List.range n).countP (fun i => x.testBit i && y.testBit (k - i)) % 2 == 1) := by
  induction n with
  | zero => simp [clmulBelow]
  | succ n ih =>
    rw [clmulBelow_succ, Nat.testBit_xor, ih (by omega), List.range_succ, List.countP_append, List.countP_singleton]
    have hnk : n ≤ k := by omega
    cases x.testBit n with
    | false => simp
    | true =>
      cases hy : y.testBit (k - n) with
      | false => simp [Nat.testBit_shiftLeft, hnk, hy]
      | true =>
        have hflip (c : Nat) : ((c % 2 == 1) ^^ true) = ((c + 1) % 2 == 1) := by
          rcases Nat.mod_two_eq_zero_or_one c with h | h <;> simp [Nat.add_mod, h]
        simpa [Nat.testBit_shiftLeft, hnk, hy] using hflip _

/-- Iterations past `k` leave bit `k` as it is. -/
theorem testBit_clmulBelow_of_lt {x y n k : Nat} (hn : k < n) :
    (clmulBelow x y n).testBit k = (clmulBelow x y (k + 1)).testBit k := by
  induction n, hn using Nat.le_induction with
  | base => rfl
  | succ n hn ih =>
    rw [clmulBelow_succ, Nat.testBit_xor, ih]
    have hkn : ¬ n ≤ k := by omega
    split <;> simp [Nat.testBit_shiftLeft, hkn]

/-- Bit `k` of the product: the XOR over `i + j = k` of the products of bits (`40_polynomial.md` R70). -/
theorem testBit_clmul (x y k : Nat) :
    (clmul x y).testBit k = ((List.range (k + 1)).countP (fun i => x.testBit i && y.testBit (k - i)) % 2 == 1) := by
  rw [← clmulBelow_of_bitlen_le (Nat.le_max_left (bitlen x) (k + 1)), testBit_clmulBelow_of_lt (by omega),
    testBit_clmulBelow (Nat.le_refl _)]

/-- The product is commutative (`40_polynomial.md` R72): its bits count the same pairs from the other end. -/
theorem clmul_comm (x y : Nat) : clmul x y = clmul y x := by
  refine Nat.eq_of_testBit_eq fun k => ?_
  rw [testBit_clmul, testBit_clmul, ← countP_range_reflect]
  congr 2
  refine List.countP_congr fun i hi => ?_
  have := List.mem_range.mp hi
  rw [Nat.sub_sub_self (by omega), Bool.and_comm]

@[simp] theorem clmul_zero_left (y : Nat) : clmul 0 y = 0 := rfl

@[simp] theorem clmul_zero_right (x : Nat) : clmul x 0 = 0 := by
  rw [clmul_comm, clmul_zero_left]

/-- A power of two shifts (`40_polynomial.md` R72). -/
theorem clmul_two_pow_left (s y : Nat) : clmul (2 ^ s) y = y <<< s := by
  have hlow : ∀ n ≤ s, clmulBelow (2 ^ s) y n = 0 := by
    intro n
    induction n with
    | zero => exact fun _ => rfl
    | succ n ih =>
      intro hn
      have hne : s ≠ n := by omega
      simp [clmulBelow_succ, ih (by omega), hne]
  have hlen : bitlen (2 ^ s) = s + 1 :=
    bitlen_eq_succ_iff.mpr ⟨Nat.le_refl _, Nat.pow_lt_pow_right (by decide) (by omega)⟩
  rw [clmul, hlen, clmulBelow_succ, hlow s (Nat.le_refl s)]
  simp

@[simp] theorem clmul_one_left (y : Nat) : clmul 1 y = y :=
  clmul_two_pow_left 0 y

@[simp] theorem clmul_one_right (x : Nat) : clmul x 1 = x := by
  rw [clmul_comm, clmul_one_left]

/-- The product is additive in its left operand (`40_polynomial.md` R72). -/
theorem clmul_xor_left (a b y : Nat) : clmul (a ^^^ b) y = clmul a y ^^^ clmul b y := by
  have hbelow (n : Nat) : clmulBelow (a ^^^ b) y n = clmulBelow a y n ^^^ clmulBelow b y n := by
    induction n with
    | zero => simp [clmulBelow]
    | succ n ih =>
      rw [clmulBelow_succ, clmulBelow_succ, clmulBelow_succ, ih, Nat.testBit_xor]
      cases a.testBit n <;> cases b.testBit n <;> simp [Nat.xor_assoc, Nat.xor_comm, Nat.xor_left_comm]
  have hn : ∃ n, bitlen a ≤ n ∧ bitlen b ≤ n ∧ bitlen (a ^^^ b) ≤ n :=
    ⟨bitlen a + bitlen b + bitlen (a ^^^ b), by omega, by omega, by omega⟩
  obtain ⟨n, ha, hb, hab⟩ := hn
  rw [← clmulBelow_of_bitlen_le ha, ← clmulBelow_of_bitlen_le hb, ← clmulBelow_of_bitlen_le hab, hbelow]

/-- A square has the bits of its root at the even positions and no other (`40_polynomial.md` R71). -/
theorem testBit_clmul_self (x k : Nat) : (clmul x x).testBit k = (k % 2 == 0 && x.testBit (k / 2)) := by
  rw [testBit_clmul, countP_range_mod_two_of_symm fun i hi => by rw [Nat.sub_sub_self hi, Bool.and_comm]]
  by_cases hk : k % 2 = 0
  · rw [show k - k / 2 = k / 2 by omega, Bool.and_self]
  · rw [beq_eq_false_iff_ne.mpr hk, Bool.false_and, Bool.false_and]

/-- The highest bit that a product can have is the product of the operands' highest bits. -/
theorem testBit_clmul_top {x y m n : Nat} (hx : x < 2 ^ (m + 1)) (hy : y < 2 ^ (n + 1)) :
    (clmul x y).testBit (m + n) = (x.testBit m && y.testBit n) := by
  rw [testBit_clmul, countP_range_of_only (m := m) (by omega) fun i hi him => ?_]
  · rw [Nat.add_sub_cancel_left]
    cases x.testBit m && y.testBit n <;> rfl
  · rcases Nat.lt_or_gt_of_ne him with hlt | hgt
    · rw [testBit_of_bitlen_le (bitlen_le_iff.mpr hy |>.trans (by omega)), Bool.and_false]
    · rw [testBit_of_bitlen_le (bitlen_le_iff.mpr hx |>.trans hgt), Bool.false_and]

/-- A value of at most `n + 1` bits has all of them exactly if its bit `n` is set. -/
theorem bitlen_eq_succ_iff_testBit {v n : Nat} (hv : v < 2 ^ (n + 1)) : bitlen v = n + 1 ↔ v.testBit n = true := by
  constructor
  · intro h
    have hpos : 0 < v := bitlen_pos_iff.mp (by omega)
    simpa [h] using testBit_bitlen_pred hpos
  · intro h
    have hle := bitlen_le_iff.mpr hv
    by_contra hne
    exact Bool.false_ne_true ((testBit_of_bitlen_le (by omega)).symm.trans h)

/-! ### The remainder -/

/-- A value shorter than the modulus is its own remainder. -/
theorem pmod_of_bitlen_lt {x m : Nat} (hm : 0 < m) (h : bitlen x < bitlen m) : pmod x m hm = x := by
  rw [pmod]
  cases bitlen x with
  | zero => rfl
  | succ k => rw [pmodLoop, if_neg (by omega)]

/-- One iteration of the reducer's loop keeps the remainder (`40_polynomial.md` R73). -/
theorem pmod_of_bitlen_le {x m : Nat} (hm : 0 < m) (h : bitlen m ≤ bitlen x) :
    pmod x m hm = pmod (x ^^^ (m <<< (bitlen x - bitlen m))) m hm := by
  have hmp := bitlen_pos_iff.mpr hm
  have hlt := bitlen_reduce_lt hm h
  obtain ⟨k, hk⟩ : ∃ k, bitlen x = k + 1 := ⟨bitlen x - 1, by omega⟩
  calc pmod x m hm = pmodLoop m (k + 1) x := by rw [pmod, hk]
    _ = pmodLoop m k (x ^^^ (m <<< (bitlen x - bitlen m))) := by rw [pmodLoop, if_pos h]
    _ = pmod (x ^^^ (m <<< (bitlen x - bitlen m))) m hm := pmodLoop_fuel hm (by omega)

/-- However many iterations the loop makes, it adds a multiple of the modulus. -/
theorem exists_xor_pmodLoop_eq_clmul (m fuel r : Nat) : ∃ q, r ^^^ pmodLoop m fuel r = clmul q m := by
  induction fuel generalizing r with
  | zero => exact ⟨0, by simp [pmodLoop]⟩
  | succ fuel ih =>
    rw [pmodLoop]
    split
    next =>
      obtain ⟨q, hq⟩ := ih (r ^^^ (m <<< (bitlen r - bitlen m)))
      refine ⟨q ^^^ 2 ^ (bitlen r - bitlen m), ?_⟩
      rw [clmul_xor_left, ← hq, clmul_two_pow_left, Nat.xor_right_comm, Nat.xor_assoc r, Nat.xor_self, Nat.xor_zero]
    next => exact ⟨0, by simp⟩

/-! ### The words and the answers of CLMUL and PMOD -/

/-- The word written with numbers is the word built from the fields (`30_encoding.md` R51). -/
theorem fieldsWord_eq {op : Nat} (_ : op < 16) (y x : Byte) :
    Spec.fieldsWord op y x = wordOfFields (BitVec.ofNat 4 op) y x := by
  have hx := x.isLt
  have hy := y.isLt
  have hlow : y.toNat <<< 8 + x.toNat < 2 ^ 16 := by
    rw [Nat.shiftLeft_eq]
    omega
  apply BitVec.eq_of_toNat_eq
  rw [wordOfFields_toNat, Spec.fieldsWord, Nat.or_assoc, ← Nat.shiftLeft_add_eq_or_of_lt hx,
    ← Nat.shiftLeft_add_eq_or_of_lt hlow, Nat.shiftLeft_eq, Nat.shiftLeft_eq, BitVec.toNat_ofNat, BitVec.toNat_ofNat]
  omega

/-- PMOD's word written with numbers is the word built from OP and Z (`30_encoding.md` R51). -/
theorem ofNat_or_eq_wordOfWide (z : Wide) : BitVec.ofNat 20 (0x20000 ||| z.toNat) = wordOfWide 0x2#4 z := by
  have hz := z.isLt
  have hor : 0x20000 ||| z.toNat = 2 <<< 16 + z.toNat := (Nat.shiftLeft_add_eq_or_of_lt hz 2).symm
  apply BitVec.eq_of_toNat_eq
  rw [wordOfWide_toNat, hor, BitVec.toNat_ofNat]
  change _ = 2 * 65536 + z.toNat
  omega

/-- CLMUL answers the number its product is. -/
theorem answers_clmul {x y : Byte} {v : Wide} (h : BitVec.ofNat 16 (clmul x.toNat y.toNat) = v) :
    Spec.answers (.clmul x y) v := by
  subst h
  exact exec_clmul x y

/-- PMOD answers the number its remainder is. -/
theorem answers_pmod {z v : Wide} (h : BitVec.ofNat 16 (pmod z.toNat modulus modulus_pos) = v) :
    Spec.answers (.pmod z) v := by
  subst h
  exact exec_pmod z

/-! ### The statements -/

/-- Settles O30. -/
theorem clmulIsPolynomialProduct : Obligations.ClmulIsPolynomialProduct := by
  unfold Obligations.ClmulIsPolynomialProduct
  exact fun x y => ⟨clmulBelow_eq_foldl x y (bitlen x), testBit_clmul x y⟩

/-- Settles O32: the loop's equation by its two cases; every iteration adds a shifted modulus. -/
theorem pmodContract : Obligations.PmodContract := by
  unfold Obligations.PmodContract
  refine fun x m hm => ⟨?_, bitlen_reduce_lt hm, bitlen_pmod_lt x hm, exists_xor_pmodLoop_eq_clmul m _ x⟩
  split
  next hle => exact pmod_of_bitlen_le hm hle
  next hlt => exact pmod_of_bitlen_lt hm (by omega)

/-- Settles O47: the word by its OP, the result by the bits of the product. -/
theorem clmulOperation : Obligations.ClmulOperation := by
  unfold Obligations.ClmulOperation
  refine ⟨fun x y => ?_, fun w hw => ?_, fun x y => ⟨answers_clmul rfl, clmul_byte_lt x y⟩,
    fun x => ⟨clmul_zero_right _, clmul_zero_left _, clmul_one_left _, clmul_one_right _⟩,
    fun x k => testBit_clmul_self x.toNat k, fun x y => ?_, fun x y => clmul_comm _ _,
    answers_clmul (by decide), answers_clmul (by decide), answers_clmul (by decide), by decide,
    answers_clmul (by decide)⟩
  · rw [fieldsWord_eq (by decide), decode_clmul (opField_wordOfFields _ _ _), xField_wordOfFields, yField_wordOfFields]
  · obtain ⟨hop, _⟩ := (and_mask_eq_iff w 0x1 .f2).mp hw
    exact ⟨_, _, decode_clmul hop⟩
  · rw [bitlen_eq_succ_iff_testBit (clmul_byte_lt x y), testBit_clmul_top (m := 7) (n := 7) x.isLt y.isLt,
      Bool.and_eq_true]
    rfl

/-- Settles O48: the word by its OP, the result by the reducer's contract. -/
theorem pmodOperation : Obligations.PmodOperation := by
  unfold Obligations.PmodOperation
  refine ⟨fun z => ?_, fun w hw => ?_, fun z => ⟨answers_pmod rfl, pmod_modulus_lt z.toNat⟩,
    fun z hz => answers_pmod ?_, answers_pmod (by decide), answers_pmod (by decide), answers_pmod (by decide),
    answers_pmod (by decide), answers_pmod (by decide), by decide, answers_pmod (by decide)⟩
  · rw [ofNat_or_eq_wordOfWide, decode_pmod (opField_wordOfWide _ _), zField_wordOfWide]
  · obtain ⟨hop, _⟩ := (and_mask_eq_iff w 0x2 .fz).mp hw
    exact ⟨_, decode_pmod hop⟩
  · have hshort : bitlen z.toNat < bitlen modulus :=
      Nat.lt_of_le_of_lt ((bitlen_le_iff (n := 8)).mpr hz) (by decide)
    rw [pmod_of_bitlen_lt modulus_pos hshort, BitVec.ofNat_toNat, BitVec.setWidth_eq]

end Sys2Proof.Machine
end

section
/-!
PROOFS. The statements of `41_field.md` about the product (R80, R81) and the inverse (R84, R85): the product as a
remainder, no zero divisors by Euclid's steps on the modulus, hence one inverse for every nonzero element.
-/

namespace Sys2Proof.Machine

/-! ### The product of polynomials -/

/-- Shifting the right operand shifts the product. -/
theorem clmul_shiftLeft_right (x y s : Nat) : clmul x (y <<< s) = clmul x y <<< s := by
  have hbelow (n : Nat) : clmulBelow x (y <<< s) n = clmulBelow x y n <<< s := by
    induction n with
    | zero => simp [clmulBelow]
    | succ n ih =>
      rw [clmulBelow_succ, clmulBelow_succ, ih, Nat.shiftLeft_xor_distrib, ← Nat.shiftLeft_add, Nat.add_comm s n,
        Nat.shiftLeft_add, apply_ite (· <<< s), Nat.zero_shiftLeft]
  exact hbelow _

/-- Shifting the left operand shifts the product. -/
theorem clmul_shiftLeft_left (x y s : Nat) : clmul (x <<< s) y = clmul x y <<< s := by
  rw [clmul_comm, clmul_shiftLeft_right, clmul_comm]

/-- The product is additive in its right operand (`40_polynomial.md` R72). -/
theorem clmul_xor_right (x y z : Nat) : clmul x (y ^^^ z) = clmul x y ^^^ clmul x z := by
  rw [clmul_comm, clmul_xor_left, clmul_comm y, clmul_comm z]

/-- The product is associative (`40_polynomial.md` R72): the loop over the bits of `x` commutes with a product. -/
theorem clmul_assoc (x y z : Nat) : clmul (clmul x y) z = clmul x (clmul y z) := by
  have hbelow (n : Nat) : clmul (clmulBelow x y n) z = clmulBelow x (clmul y z) n := by
    induction n with
    | zero => rfl
    | succ n ih =>
      rw [clmulBelow_succ, clmulBelow_succ, clmul_xor_left, ih]
      split
      · rw [clmul_shiftLeft_left]
      · rw [clmul_zero_left]
  exact hbelow _

/-- The degree of a product is the sum of the degrees (`40_polynomial.md` R72). -/
theorem bitlen_clmul {x y : Nat} (hx : 0 < x) (hy : 0 < y) : bitlen (clmul x y) + 1 = bitlen x + bitlen y := by
  obtain ⟨m, hm⟩ := Nat.exists_eq_add_one.mpr (bitlen_pos_iff.mpr hx)
  obtain ⟨n, hn⟩ := Nat.exists_eq_add_one.mpr (bitlen_pos_iff.mpr hy)
  have hxm : x < 2 ^ (m + 1) := bitlen_le_iff.mp (by omega)
  have hyn : y < 2 ^ (n + 1) := bitlen_le_iff.mp (by omega)
  have hlt : clmul x y < 2 ^ (m + n + 1) := by
    rw [Nat.add_comm m n, Nat.add_right_comm]
    exact clmul_lt_two_pow hxm hyn
  have htop : (clmul x y).testBit (m + n) = true := by
    rw [testBit_clmul_top hxm hyn, (bitlen_eq_succ_iff_testBit hxm).mp hm, (bitlen_eq_succ_iff_testBit hyn).mp hn]
    rfl
  have := (bitlen_eq_succ_iff_testBit hlt).mpr htop
  omega

/-! ### The remainder is unique -/

/-- A multiple of the modulus that is shorter than it is 0. -/
theorem clmul_eq_zero_of_bitlen_lt {q m : Nat} (hm : 0 < m) (h : bitlen (clmul q m) < bitlen m) : clmul q m = 0 := by
  rcases Nat.eq_zero_or_pos q with rfl | hq
  · exact clmul_zero_left m
  · have := bitlen_clmul hq hm
    have := bitlen_pos_iff.mpr hq
    omega

/-- A value of smaller bit-length is smaller. -/
theorem lt_of_bitlen_lt {u v : Nat} (h : bitlen u < bitlen v) : u < v :=
  Nat.lt_of_lt_of_le (lt_two_pow_bitlen u) (Nat.not_lt.mp fun hv => Nat.not_le.mpr h (bitlen_le_iff.mpr hv))

/-- The XOR of two values is no longer than both. -/
theorem bitlen_xor_lt {a b n : Nat} (ha : bitlen a < n) (hb : bitlen b < n) : bitlen (a ^^^ b) < n := by
  obtain ⟨k, rfl⟩ := Nat.exists_eq_add_one.mpr (Nat.zero_lt_of_lt ha)
  exact Nat.lt_succ_of_le (bitlen_le_iff.mpr (Nat.xor_lt_two_pow (bitlen_le_iff.mp (by omega))
    (bitlen_le_iff.mp (by omega))))

/-- A value and its remainder differ by a multiple of the modulus (`40_polynomial.md` R73). -/
theorem exists_xor_pmod_eq_clmul (x : Nat) {m : Nat} (hm : 0 < m) : ∃ q, x ^^^ pmod x m hm = clmul q m :=
  exists_xor_pmodLoop_eq_clmul m _ x

/-- The remainder is the only value shorter than the modulus that differs from `x` by a multiple of it
(`40_polynomial.md` R75): two of them differ by a multiple that is shorter than the modulus. -/
theorem eq_pmod_of_xor_eq_clmul {x r q m : Nat} (hm : 0 < m) (hr : bitlen r < bitlen m) (h : x ^^^ r = clmul q m) :
    r = pmod x m hm := by
  obtain ⟨p, hp⟩ := exists_xor_pmod_eq_clmul x hm
  have hdiff : r ^^^ pmod x m hm = clmul (q ^^^ p) m := by
    rw [clmul_xor_left, ← h, ← hp, Nat.xor_comm x r, Nat.xor_assoc, xor_cancel_left]
  have hzero := clmul_eq_zero_of_bitlen_lt hm (hdiff ▸ bitlen_xor_lt hr (bitlen_pmod_lt x hm))
  exact xor_eq_zero_iff.mp (hdiff.trans hzero)

/-- The remainder is additive (`40_polynomial.md` R75). -/
theorem pmod_xor (x y : Nat) {m : Nat} (hm : 0 < m) : pmod (x ^^^ y) m hm = pmod x m hm ^^^ pmod y m hm := by
  obtain ⟨p, hp⟩ := exists_xor_pmod_eq_clmul x hm
  obtain ⟨q, hq⟩ := exists_xor_pmod_eq_clmul y hm
  refine (eq_pmod_of_xor_eq_clmul (q := p ^^^ q) hm (bitlen_xor_lt (bitlen_pmod_lt x hm) (bitlen_pmod_lt y hm)) ?_).symm
  rw [clmul_xor_left, ← hp, ← hq]
  ac_rfl

/-! ### The modulus is prime -/

/-- No polynomial of degree 1 to 4 divides the modulus x^8+x^4+x^3+x+1. -/
theorem pmod_modulus_ne_zero_of_lt_32 : ∀ a < 32, ∀ ha : 1 < a, pmod modulus a (Nat.zero_lt_of_lt ha) ≠ 0 := by
  decide

/-- The modulus is irreducible (`91_not_in_source.md` N11): of two factors the shorter one has degree at most 4. -/
theorem eq_one_of_modulus_eq_clmul {a b : Nat} (h : modulus = clmul b a) : a = 1 ∨ b = 1 := by
  wlog hab : bitlen a ≤ bitlen b generalizing a b
  · exact (this (h.trans (clmul_comm b a)) (by omega)).symm
  have ha : 0 < a := by
    refine Nat.pos_of_ne_zero fun h₀ => modulus_pos.ne' ?_
    rw [h, h₀, clmul_zero_right]
  have hb : 0 < b := by
    refine Nat.pos_of_ne_zero fun h₀ => modulus_pos.ne' ?_
    rw [h, h₀, clmul_zero_left]
  have hsum := bitlen_clmul hb ha
  rw [← h, show bitlen modulus = 9 by decide] at hsum
  have hshort : a < 32 := (bitlen_le_iff (n := 5)).mp (by omega)
  have hrem : 0 = pmod modulus a ha :=
    eq_pmod_of_xor_eq_clmul ha (bitlen_pos_iff.mpr ha) (by rw [Nat.xor_zero, h])
  refine .inl (Nat.le_antisymm (Nat.not_lt.mp fun hone => ?_) ha)
  exact pmod_modulus_ne_zero_of_lt_32 a hshort hone hrem.symm

/-- No byte above 1 divides the modulus. -/
theorem pmod_modulus_pos {a : Nat} (hone : 1 < a) (hlt : a < 256) :
    0 < pmod modulus a (Nat.zero_lt_of_lt hone) := by
  refine Nat.pos_of_ne_zero fun h₀ => ?_
  obtain ⟨c, hc⟩ := exists_xor_pmod_eq_clmul modulus (Nat.zero_lt_of_lt hone)
  rw [h₀, Nat.xor_zero] at hc
  rcases eq_one_of_modulus_eq_clmul hc with rfl | rfl
  · exact Nat.lt_irrefl 1 hone
  · rw [clmul_one_left] at hc
    exact absurd (hc ▸ hlt) (by decide)

/-- Euclid's lemma for the modulus: where it divides the product of `y` and a shorter nonzero `a`, it divides `y`. The
remainder of the modulus by `a` has the property of `a`, is shorter, and is not 0. -/
theorem exists_eq_clmul_modulus {a y q : Nat} (hpos : 0 < a) (hlt : a < 256) (h : clmul a y = clmul q modulus) :
    ∃ p, y = clmul p modulus := by
  induction a using Nat.strong_induction_on generalizing q with
  | _ a ih =>
    rcases Nat.eq_or_lt_of_le (Nat.succ_le_of_lt hpos) with rfl | hone
    · exact ⟨q, by rw [← h, clmul_one_left]⟩
    · obtain ⟨c, hc⟩ := exists_xor_pmod_eq_clmul modulus hpos
      have hshort : pmod modulus a hpos < a := lt_of_bitlen_lt (bitlen_pmod_lt modulus hpos)
      refine ih _ hshort (pmod_modulus_pos hone hlt) (by omega) (q := y ^^^ clmul c q) ?_
      calc clmul (pmod modulus a hpos) y = clmul (modulus ^^^ clmul c a) y := by rw [← hc, xor_cancel_left]
        _ = clmul modulus y ^^^ clmul c (clmul a y) := by rw [clmul_xor_left, clmul_assoc]
        _ = clmul (y ^^^ clmul c q) modulus := by rw [h, clmul_xor_left, clmul_assoc, clmul_comm modulus]

/-! ### The product in the field -/

/-- A nonzero element as a number. -/
theorem toNat_pos_of_ne_zero {x : Byte} (hx : x ≠ 0) : 0 < x.toNat :=
  Nat.pos_of_ne_zero fun h => hx (BitVec.eq_of_toNat_eq h)

/-- An element is shorter than the modulus. -/
theorem bitlen_byte_lt_modulus (x : Byte) : bitlen x.toNat < bitlen modulus :=
  Nat.lt_of_le_of_lt (bitlen_le_iff.mpr x.isLt) (by decide)

/-- The product as a number: its 8 bits drop nothing of the remainder (`41_field.md` R80). -/
theorem gfmul_toNat (x y : Byte) : (gfmul x y).toNat = pmod (clmul x.toNat y.toNat) modulus modulus_pos :=
  Nat.mod_eq_of_lt (pmod_modulus_lt _)

theorem gfmul_comm (x y : Byte) : gfmul x y = gfmul y x := by
  rw [← BitVec.toNat_inj, gfmul_toNat, gfmul_toNat, clmul_comm]

/-- The product is additive in its right operand (`41_field.md` R82). -/
theorem gfmul_xor_right (x y z : Byte) : gfmul x (y ^^^ z) = gfmul x y ^^^ gfmul x z := by
  rw [← BitVec.toNat_inj, BitVec.toNat_xor, gfmul_toNat, gfmul_toNat, gfmul_toNat, BitVec.toNat_xor, clmul_xor_right,
    pmod_xor]

/-- The product is additive in its left operand (`41_field.md` R82). -/
theorem gfmul_xor_left (x y z : Byte) : gfmul (x ^^^ y) z = gfmul x z ^^^ gfmul y z := by
  rw [gfmul_comm, gfmul_xor_right, gfmul_comm z, gfmul_comm z]

theorem gfmul_zero_left (x : Byte) : gfmul 0 x = 0 := rfl

theorem gfmul_zero_right (x : Byte) : gfmul x 0 = 0 := by
  rw [gfmul_comm, gfmul_zero_left]

theorem gfmul_one_left (x : Byte) : gfmul 1 x = x := by
  have hone : (1 : Byte).toNat = 1 := rfl
  rw [← BitVec.toNat_inj, gfmul_toNat, hone, clmul_one_left, pmod_of_bitlen_lt _ (bitlen_byte_lt_modulus x)]

theorem gfmul_one_right (x : Byte) : gfmul x 1 = x := by
  rw [gfmul_comm, gfmul_one_left]

/-- The field has no zero divisors (`41_field.md` R82). -/
theorem eq_zero_of_gfmul_eq_zero {x y : Byte} (hx : x ≠ 0) (h : gfmul x y = 0) : y = 0 := by
  obtain ⟨q, hq⟩ := exists_xor_pmod_eq_clmul (clmul x.toNat y.toNat) modulus_pos
  have hzero : (0 : Byte).toNat = 0 := rfl
  rw [← gfmul_toNat, h, hzero, Nat.xor_zero] at hq
  obtain ⟨p, hp⟩ := exists_eq_clmul_modulus (toNat_pos_of_ne_zero hx) x.isLt hq
  exact BitVec.eq_of_toNat_eq (hp.trans (clmul_eq_zero_of_bitlen_lt modulus_pos (hp ▸ bitlen_byte_lt_modulus y)))

/-- Multiplication by a nonzero element loses nothing. -/
theorem gfmul_injective {x : Byte} (hx : x ≠ 0) : Function.Injective (gfmul x) := by
  intro y z h
  have hzero : gfmul x (y ^^^ z) = 0 := by rw [gfmul_xor_right, h, xor_eq_zero_iff]
  exact xor_eq_zero_iff.mp (eq_zero_of_gfmul_eq_zero hx hzero)

/-! ### The inverse -/

/-- The candidates of the search are the nonzero elements (`41_field.md` R84). -/
theorem mem_inverseCandidates {y : Byte} (hy : y ≠ 0) : y ∈ inverseCandidates := by
  have hpos := toNat_pos_of_ne_zero hy
  have := y.isLt
  refine List.mem_map.mpr ⟨y.toNat - 1, List.mem_range.mpr (by omega), ?_⟩
  rw [Nat.sub_add_cancel hpos, BitVec.ofNat_toNat, BitVec.setWidth_eq]

theorem gfinv_zero : gfinv 0 = 0 := rfl

/-- The search finds an inverse (`41_field.md` R84): multiplication by `x` is injective on a finite set, so it takes
the value 1. -/
theorem gfmul_gfinv {x : Byte} (hx : x ≠ 0) : gfmul x (gfinv x) = 1 := by
  obtain ⟨y, hy⟩ := Finite.surjective_of_injective (gfmul_injective hx) 1
  have hne : y ≠ 0 := by
    rintro rfl
    exact absurd ((gfmul_zero_right x).symm.trans hy) (by decide)
  have hsome : (inverseCandidates.find? fun y => gfmul x y == 1).isSome :=
    List.find?_isSome.mpr ⟨y, mem_inverseCandidates hne, beq_iff_eq.mpr hy⟩
  obtain ⟨z, hz⟩ := Option.isSome_iff_exists.mp hsome
  rw [gfinv, if_neg hx, hz]
  exact beq_iff_eq.mp (List.find?_some (p := fun y => gfmul x y == 1) hz)

/-- An element whose product with `x` is 1 is the inverse of `x`. -/
theorem eq_gfinv_of_gfmul_eq_one {x y : Byte} (h : gfmul x y = 1) : y = gfinv x := by
  have hx : x ≠ 0 := by
    rintro rfl
    exact absurd ((gfmul_zero_left y).symm.trans h) (by decide)
  exact gfmul_injective hx (h.trans (gfmul_gfinv hx).symm)

theorem gfinv_ne_zero {x : Byte} (hx : x ≠ 0) : gfinv x ≠ 0 := by
  intro h
  have hone := gfmul_gfinv hx
  rw [h, gfmul_zero_right] at hone
  exact absurd hone (by decide)

theorem gfinv_one : gfinv 1 = 1 :=
  (eq_gfinv_of_gfmul_eq_one (gfmul_one_left 1)).symm

/-- Inversion is an involution (`41_field.md` R87). -/
@[simp] theorem gfinv_gfinv (x : Byte) : gfinv (gfinv x) = x := by
  by_cases hx : x = 0
  · rw [hx, gfinv_zero, gfinv_zero]
  · exact (eq_gfinv_of_gfmul_eq_one ((gfmul_comm _ _).trans (gfmul_gfinv hx))).symm

/-- Only 0 and 1 are their own inverses (`41_field.md` R87): `x * x = 1` makes the square of `x + 1` zero. -/
theorem eq_zero_or_one_of_gfinv_eq {x : Byte} (h : gfinv x = x) : x = 0 ∨ x = 1 := by
  by_cases hx : x = 0
  · exact .inl hx
  · have hsquare : gfmul x x = 1 := by
      have := gfmul_gfinv hx
      rwa [h] at this
    have hzero : gfmul (x ^^^ 1) (x ^^^ 1) = 0 := by
      rw [gfmul_xor_left, gfmul_xor_right, hsquare, gfmul_one_right, gfmul_one_left, xor_eq_zero_iff,
        BitVec.xor_comm]
    refine .inr (xor_eq_zero_iff.mp ?_)
    by_contra hne
    exact hne (eq_zero_of_gfmul_eq_zero hne hzero)

/-! ### The words and the answers of GFMUL and GFINV -/

/-- An operation that the decoder reads by the one-operand format has the words of that format: with Y = 0 the
operation, else IllegalCommand (`30_encoding.md` R53). -/
theorem oneOperandWords_of_decode {op : Nat} (hop : op < 16) {i : Byte → Instr}
    (h : ∀ {w : CmdWord}, opField w = BitVec.ofNat 4 op → decode w = decodeOneOperand w (i (xField w))) :
    Spec.oneOperandWords op i := by
  have hword (y x : Byte) : decode (Spec.fieldsWord op y x) = if y = 0 then .legal (i x) else .illegal .nonzeroY := by
    rw [fieldsWord_eq hop, h (opField_wordOfFields _ _ _), decodeOneOperand, yField_wordOfFields, xField_wordOfFields]
  exact ⟨fun x => (hword 0 x).trans (if_pos rfl),
    fun x y s hy => acceptWord_illegal ((hword y x).trans (if_neg hy)) s⟩

/-- GFMUL answers the product, zero-extended. -/
theorem answers_gfmul {x y : Byte} {v : Wide} (h : zext16 (gfmul x y) = v) : Spec.answers (.gfmul x y) v := by
  subst h
  exact exec_gfmul x y

/-- GFINV answers the inverse, zero-extended. -/
theorem answers_gfinv {x : Byte} {v : Wide} (h : zext16 (gfinv x) = v) : Spec.answers (.gfinv x) v := by
  subst h
  exact exec_gfinv x

/-- GFMUL is CLMUL followed by PMOD of its result (`41_field.md` R81): 16 bits drop nothing of the product. -/
theorem exec_gfmul_eq_exec_pmod (x y : Byte) (s : State) :
    exec (.gfmul x y) s = exec (.pmod (BitVec.ofNat 16 (clmul x.toNat y.toNat))) s := by
  have hfits : (BitVec.ofNat 16 (clmul x.toNat y.toNat)).toNat = clmul x.toNat y.toNat :=
    Nat.mod_eq_of_lt (Nat.lt_trans (clmul_byte_lt x y) (by decide))
  rw [exec_gfmul, exec_pmod, zext16_eq_ofNat, gfmul_toNat, hfits]

/-- The inverse of 0x53 is 0xCA (`41_field.md` R85). -/
theorem gfinv_0x53 : gfinv 0x53 = 0xCA :=
  (eq_gfinv_of_gfmul_eq_one (by decide)).symm

/-! ### The statements -/

/-- Settles O35. -/
theorem gfmulIsReducedProduct : Obligations.GfmulIsReducedProduct := by
  unfold Obligations.GfmulIsReducedProduct
  exact fun x y => ⟨gfmul_toNat x y, clmul_byte_lt x y⟩

/-- Settles O37: the search finds an inverse, and multiplication by a nonzero element is injective. -/
theorem gfinvIsTheInverse : Obligations.GfinvIsTheInverse := by
  unfold Obligations.GfinvIsTheInverse
  exact ⟨gfinv_zero, answers_gfinv rfl, fun x hx =>
    ⟨toNat_pos_of_ne_zero (gfinv_ne_zero hx), gfmul_gfinv hx, fun y => eq_gfinv_of_gfmul_eq_one⟩⟩

/-- Settles O49: the word by its OP, the result by the laws of the product. -/
theorem gfmulOperation : Obligations.GfmulOperation := by
  unfold Obligations.GfmulOperation
  refine ⟨fun x y => ?_, fun w hw => ?_, fun x y => answers_gfmul (zext16_eq_ofNat _),
    fun x => ⟨gfmul_zero_right x, gfmul_zero_left x, gfmul_one_left x, gfmul_one_right x⟩, fun x => gfmul_gfinv,
    gfmul_comm, exec_gfmul_eq_exec_pmod, by decide, answers_gfmul (by decide)⟩
  · rw [fieldsWord_eq (by decide), decode_gfmul (opField_wordOfFields _ _ _), xField_wordOfFields, yField_wordOfFields]
  · obtain ⟨hop, _⟩ := (and_mask_eq_iff w 0x3 .f2).mp hw
    exact ⟨_, _, decode_gfmul hop⟩

/-- Settles O50: the words by the one-operand format, the result by the uniqueness of the inverse. -/
theorem gfinvOperation : Obligations.GfinvOperation := by
  unfold Obligations.GfinvOperation
  refine ⟨oneOperandWords_of_decode (by decide) decode_gfinv, fun x => answers_gfinv (zext16_eq_ofNat _), gfinv_zero,
    gfinv_one, fun x => eq_zero_or_one_of_gfinv_eq, gfinv_gfinv, by decide, answers_gfinv ?_, fun y hy hone => ?_⟩
  · rw [gfinv_0x53]
    rfl
  · rw [(eq_gfinv_of_gfmul_eq_one hone).trans gfinv_0x53] at hy
    exact absurd hy (by decide)

end Sys2Proof.Machine
end

section
/-!
PROOFS. The statements of `42_affine.md` about the affine transform bit by bit (R90) and the operations AFFF (R93) and
AFFI (R94): the matrix part is additive, so it is known from its values at the eight single bits.
-/

namespace Sys2Proof.Machine

/-! ### Parity -/

/-- The population count counts the bits that are 1. -/
theorem popcountBelow_eq_countP (v n : Nat) : popcountBelow v n = (List.range n).countP v.testBit := by
  induction n with
  | zero => rfl
  | succ n ih =>
    rw [popcountBelow, ih, List.range_succ, List.countP_append, List.countP_singleton, Bool.toNat, Bool.cond_eq_ite]

/-- The parity of two bytes' AND counts the positions at which both have a 1 (`42_affine.md` R90). -/
theorem parity_and_eq_countP (u x : Byte) :
    parity (u.toNat &&& x.toNat) =
      (((List.range 8).countP fun j => u.getLsbD j && x.getLsbD j) % 2 == 1) := by
  have hcount : popcountBelow (u &&& x).toNat 8 = (List.range 8).countP fun j => u.getLsbD j && x.getLsbD j := by
    rw [popcountBelow_eq_countP]
    exact congrArg (List.countP · (List.range 8)) (funext fun j => BitVec.getLsbD_and)
  rw [← BitVec.toNat_and, parity_byte, hcount]

/-- One more bit flips the parity of a count exactly if it is 1. -/
theorem add_toNat_mod_two_beq (c : Nat) (b : Bool) : ((c + b.toNat) % 2 == 1) = ((c % 2 == 1) ^^ b) := by
  cases b with
  | false => simp
  | true => rcases Nat.mod_two_eq_zero_or_one c with h | h <;> simp [Nat.add_mod, h]

/-- Parity is additive: bits that are 1 in both values cancel in pairs. -/
theorem parity_xor (u v : Nat) : parity (u ^^^ v) = (parity u ^^ parity v) := by
  have hbelow (n : Nat) : (popcountBelow (u ^^^ v) n % 2 == 1) =
      ((popcountBelow u n % 2 == 1) ^^ (popcountBelow v n % 2 == 1)) := by
    induction n with
    | zero => rfl
    | succ n ih =>
      simp only [popcountBelow, add_toNat_mod_two_beq, ih, Nat.testBit_xor, Bool.xor_assoc, Bool.xor_left_comm]
  obtain ⟨n, hu, hv, huv⟩ : ∃ n, bitlen u ≤ n ∧ bitlen v ≤ n ∧ bitlen (u ^^^ v) ≤ n :=
    ⟨bitlen u + bitlen v + bitlen (u ^^^ v), by omega, by omega, by omega⟩
  simpa only [parity, popcountBelow_of_bitlen_le hu, popcountBelow_of_bitlen_le hv, popcountBelow_of_bitlen_le huv]
    using hbelow n

/-! ### The matrix part, bit by bit -/

/-- A single bit placed at position `i` of a byte. -/
theorem getLsbD_ofBool_shiftLeft (b : Bool) (i k : Fin 8) :
    ((BitVec.ofBool b).setWidth 8 <<< i.val).getLsbD k = (decide (k = i) && b) := by
  cases b with
  | false => simp
  | true => revert i k; decide

/-- The loop that places the bit of every listed row adds bit `k` exactly if row `k` is listed and its bit is 1. -/
theorem getLsbD_foldl_or_bit (f : Fin 8 → Bool) (l : List (Fin 8)) (acc : Byte) (k : Fin 8) :
    (l.foldl (fun acc i => acc ||| ((BitVec.ofBool (f i)).setWidth 8 <<< i.val)) acc).getLsbD k =
      (acc.getLsbD k || (decide (k ∈ l) && f k)) := by
  induction l generalizing acc with
  | nil => simp
  | cons i l ih =>
    rw [List.foldl_cons, ih, BitVec.getLsbD_or, getLsbD_ofBool_shiftLeft]
    by_cases hk : k = i
    · subst hk
      cases acc.getLsbD k <;> cases f k <;> simp
    · simp [hk]

/-- Bit `i` of the matrix part is the parity of row `i` AND the vector (`42_affine.md` R90). -/
theorem getLsbD_matVec (r : BitMatrix) (x : Byte) (i : Fin 8) :
    (matVec r x).getLsbD i = parity ((r.get i).toNat &&& x.toNat) := by
  have hlisted : i ∈ rowOrder := by revert i; decide
  have hstart : (0 : Byte).getLsbD i = false := BitVec.getLsbD_zero
  rw [matVec, getLsbD_foldl_or_bit, hstart, decide_eq_true hlisted, Bool.false_or, Bool.true_and, polyOf,
    BitVec.toNat_and]

theorem getLsbD_affine (r : BitMatrix) (x b : Byte) (i : Fin 8) :
    (affine r x b).getLsbD i = (parity ((r.get i).toNat &&& x.toNat) ^^ b.getLsbD i) := by
  rw [affine, BitVec.getLsbD_xor, getLsbD_matVec]

/-- Row `i` of a packed matrix is its byte `i` (`10_state.md` R23). -/
theorem unpackMatrix_get_toNat (p : BitVec 64) (i : Fin 8) :
    ((unpackMatrix p).get i).toNat = p.toNat / 2 ^ (8 * i.val) % 256 := by
  have hrow : (unpackMatrix p).get i = packedRow p i := by fin_cases i <;> rfl
  rw [hrow, packedRow, BitVec.extractLsb'_toNat, Nat.shiftRight_eq_div_pow]

/-! ### Additive maps of bytes -/

/-- The matrix part is additive in the vector (`42_affine.md` R91). -/
theorem matVec_xor (r : BitMatrix) (x y : Byte) : matVec r (x ^^^ y) = matVec r x ^^^ matVec r y := by
  refine BitVec.eq_of_getLsbD_eq fun i hi => ?_
  have hbit (z : Byte) := getLsbD_matVec r z ⟨i, hi⟩
  rw [BitVec.getLsbD_xor, hbit, hbit, hbit, BitVec.toNat_xor, Nat.and_xor_distrib_left, parity_xor]

/-- A map of bytes that commutes with XOR. -/
def XorAdditive (f : Byte → Byte) : Prop :=
  ∀ x y, f (x ^^^ y) = f x ^^^ f y

theorem xorAdditive_matVec (r : BitMatrix) : XorAdditive (matVec r) :=
  matVec_xor r

theorem XorAdditive.comp {f g : Byte → Byte} (hf : XorAdditive f) (hg : XorAdditive g) : XorAdditive (f ∘ g) :=
  fun x y => (congrArg f (hg x y)).trans (hf _ _)

theorem XorAdditive.map_zero {f : Byte → Byte} (hf : XorAdditive f) : f 0 = 0 := by
  have h := hf 0 0
  rwa [BitVec.xor_self, BitVec.xor_self] at h

/-- A byte below `2^(n+1)` whose bit `n` is 0 is below `2^n`. -/
theorem toNat_lt_of_getLsbD_eq_false {x : Byte} {n : Nat} (hx : x.toNat < 2 ^ (n + 1)) (hbit : x.getLsbD n = false) :
    x.toNat < 2 ^ n := by
  refine Nat.lt_pow_two_of_testBit _ fun i hi => ?_
  rcases Nat.eq_or_lt_of_le hi with rfl | hlt
  · exact hbit
  · exact testBit_of_bitlen_le ((bitlen_le_iff.mpr hx).trans hlt)

/-- A byte below `2^(n+1)` whose bit `n` is 1 is below `2^n` without it. -/
theorem toNat_xor_bit_lt {x : Byte} {n : Nat} (hn : n < 8) (hx : x.toNat < 2 ^ (n + 1)) (hbit : x.getLsbD n = true) :
    (x ^^^ (1 : Byte) <<< n).toNat < 2 ^ n := by
  have hone : ((1 : Byte) <<< n).toNat < 2 ^ (n + 1) := by
    have := Nat.pow_lt_pow_right (a := 2) (by decide) hn
    simp
    omega
  refine toNat_lt_of_getLsbD_eq_false ?_ (by simp [hbit, hn])
  rw [BitVec.toNat_xor]
  exact Nat.xor_lt_two_pow hx hone

/-- Two additive maps that agree on the eight single bits are equal: every byte is the XOR of its bits. -/
theorem XorAdditive.ext {f g : Byte → Byte} (hf : XorAdditive f) (hg : XorAdditive g)
    (h : ∀ j : Fin 8, f ((1 : Byte) <<< j.val) = g ((1 : Byte) <<< j.val)) (x : Byte) : f x = g x := by
  have hbelow (n : Nat) (hn : n ≤ 8) (x : Byte) (hx : x.toNat < 2 ^ n) : f x = g x := by
    induction n generalizing x with
    | zero => rw [show x = 0 from BitVec.eq_of_toNat_eq (Nat.lt_one_iff.mp hx), hf.map_zero, hg.map_zero]
    | succ n ih =>
      cases hbit : x.getLsbD n with
      | false => exact ih (by omega) x (toNat_lt_of_getLsbD_eq_false hx hbit)
      | true =>
        have hrest := ih (by omega) _ (toNat_xor_bit_lt hn hx hbit)
        rw [hf, hg, h ⟨n, hn⟩] at hrest
        exact (BitVec.xor_left_inj _).mp hrest
  exact hbelow 8 (Nat.le_refl 8) x x.isLt

/-! ### The two transforms undo each other -/

/-- `A_INV` is a left inverse of `A_FWD` (`42_affine.md` R95). -/
theorem matVec_aInv_aFwd (x : Byte) : matVec aInv (matVec aFwd x) = x :=
  ((xorAdditive_matVec aInv).comp (xorAdditive_matVec aFwd)).ext (fun _ _ => rfl : XorAdditive id) (by decide) x

/-- `A_INV` is a right inverse of `A_FWD` (`42_affine.md` R95). -/
theorem matVec_aFwd_aInv (x : Byte) : matVec aFwd (matVec aInv x) = x :=
  ((xorAdditive_matVec aFwd).comp (xorAdditive_matVec aInv)).ext (fun _ _ => rfl : XorAdditive id) (by decide) x

/-- Where the matrix `q` undoes the matrix `r`, and takes `b` to `c`, the transform by `q` and `c` undoes the one by
`r` and `b`. -/
theorem affine_affine_cancel {q r : BitMatrix} {b c : Byte} (hmat : ∀ x, matVec q (matVec r x) = x)
    (hconst : matVec q b = c) (x : Byte) : affine q (affine r x b) c = x := by
  rw [affine, affine, matVec_xor, hmat, hconst, BitVec.xor_assoc, BitVec.xor_self, BitVec.xor_zero]

/-- The inverse transform undoes the forward one (`42_affine.md` R95). -/
theorem affine_aInv_aFwd (x : Byte) : affine aInv (affine aFwd x bFwd) bInv = x :=
  affine_affine_cancel matVec_aInv_aFwd (by decide) x

/-- The forward transform undoes the inverse one (`42_affine.md` R95). -/
theorem affine_aFwd_aInv (x : Byte) : affine aFwd (affine aInv x bInv) bFwd = x :=
  affine_affine_cancel matVec_aFwd_aInv (by decide) x

theorem affine_aFwd_bijective : Function.Bijective fun x => affine aFwd x bFwd :=
  Function.bijective_iff_has_inverse.mpr ⟨fun x => affine aInv x bInv, affine_aInv_aFwd, affine_aFwd_aInv⟩

/-! ### No byte is transformed to itself -/

/-- The matrix whose row 0 sums bits 0, 1, 4 and 5 of the vector, the other rows zero. -/
def pairSum : BitMatrix := #v[0x33, 0, 0, 0, 0, 0, 0, 0]

/-- `A_FWD` keeps the sum of bits 0, 1, 4 and 5. -/
theorem matVec_pairSum_aFwd (x : Byte) : matVec pairSum (matVec aFwd x) = matVec pairSum x :=
  ((xorAdditive_matVec pairSum).comp (xorAdditive_matVec aFwd)).ext (xorAdditive_matVec pairSum) (by decide) x

/-- No byte is its own forward transform (`42_affine.md` R93): the matrix keeps the sum of bits 0, 1, 4 and 5, and the
constant 0x63 flips it. -/
theorem affine_aFwd_ne_self (x : Byte) : affine aFwd x bFwd ≠ x := by
  intro hfix
  have hflip : matVec pairSum x ^^^ matVec pairSum bFwd = matVec pairSum x := by
    rw [← matVec_pairSum_aFwd x, ← matVec_xor, matVec_pairSum_aFwd]
    exact congrArg (matVec pairSum) hfix
  have hzero : matVec pairSum bFwd = 0 :=
    (BitVec.xor_right_inj (matVec pairSum x)).mp (hflip.trans BitVec.xor_zero.symm)
  exact absurd hzero (by decide)

/-- No byte is its own inverse transform (`42_affine.md` R94), as none is its own forward transform. -/
theorem affine_aInv_ne_self (x : Byte) : affine aInv x bInv ≠ x := by
  intro hfix
  have hback := affine_aFwd_aInv x
  rw [hfix] at hback
  exact affine_aFwd_ne_self x hback

/-! ### The answers of AFFF and AFFI -/

/-- AFFF answers the forward transform, zero-extended. -/
theorem answers_afff {x : Byte} {v : Wide} (h : zext16 (affine aFwd x bFwd) = v) : Spec.answers (.afff x) v := by
  subst h
  exact exec_afff x

/-- AFFI answers the inverse transform, zero-extended. -/
theorem answers_affi {x : Byte} {v : Wide} (h : zext16 (affine aInv x bInv) = v) : Spec.answers (.affi x) v := by
  subst h
  exact exec_affi x

/-! ### The statements -/

/-- Settles O39: the loop sets each bit once, the parity of two bytes' AND is a count, and a packed row is a byte. -/
theorem affineBitwise : Obligations.AffineBitwise := by
  unfold Obligations.AffineBitwise
  refine ⟨fun r x b i => ⟨getLsbD_affine r x b i, parity_and_eq_countP _ x⟩, fun p x b i => ?_⟩
  rw [affinePacked, getLsbD_affine, unpackMatrix_get_toNat]

/-- Settles O51: the words by the one-operand format, the result by the forward transform, which has an inverse. -/
theorem afffOperation : Obligations.AfffOperation := by
  unfold Obligations.AfffOperation
  exact ⟨oneOperandWords_of_decode (by decide) decode_afff, fun x => answers_afff (zext16_eq_ofNat _),
    answers_afff (by decide), answers_afff (by decide), answers_afff (by decide), answers_afff (by decide),
    affine_aFwd_ne_self, affine_aFwd_bijective, by decide, answers_afff (by decide)⟩

/-- Settles O52: the words by the one-operand format, the result by the inverse transform, which AFFF undoes. -/
theorem affiOperation : Obligations.AffiOperation := by
  unfold Obligations.AffiOperation
  exact ⟨oneOperandWords_of_decode (by decide) decode_affi, fun x => answers_affi (zext16_eq_ofNat _),
    answers_affi (by decide), answers_affi (by decide), answers_affi (by decide), answers_affi (by decide),
    affine_aInv_ne_self, by decide, answers_affi (by decide)⟩

end Sys2Proof.Machine
end

section
/-!
PROOFS. The statements of `43_sbox.md`: the two S-boxes undo each other (R102, R105), the layout (R108), the operations
SBOX (R101) and ISBOX (R104), and the tables of GENS (R106) and GENI (R107), by induction over the entries still to
emit.
-/

namespace Sys2Proof.Machine

/-! ### The two S-boxes undo each other -/

/-- The inverse S-box undoes the forward one (`43_sbox.md` R105): first the affine transform, then the inversion. -/
@[simp] theorem invSbox_sbox (x : Byte) : invSbox (sbox x) = x := by
  rw [invSbox, sbox, affine_aInv_aFwd, gfinv_gfinv]

/-- The forward S-box undoes the inverse one (`43_sbox.md` R105). -/
@[simp] theorem sbox_invSbox (x : Byte) : sbox (invSbox x) = x := by
  rw [sbox, invSbox, gfinv_gfinv, affine_aFwd_aInv]

theorem sbox_bijective : Function.Bijective sbox :=
  Function.bijective_iff_has_inverse.mpr ⟨invSbox, invSbox_sbox, sbox_invSbox⟩

theorem invSbox_bijective : Function.Bijective invSbox :=
  Function.bijective_iff_has_inverse.mpr ⟨sbox, sbox_invSbox, invSbox_sbox⟩

/-- An entry of the inverse S-box, read off the forward one. -/
theorem invSbox_eq_of_sbox_eq {x v : Byte} (h : sbox x = v) : invSbox v = x :=
  h ▸ invSbox_sbox x

/-- An inverse, by the one product that shows it, without the search. -/
theorem gfinv_eq_of_gfmul_eq_one {x y : Byte} (h : gfmul x y = 1) : gfinv x = y :=
  (eq_gfinv_of_gfmul_eq_one h).symm

/-- An entry of the forward S-box, by the inverse of its index. -/
theorem sbox_eq_of_gfmul_eq_one {x y v : Byte} (hone : gfmul x y = 1) (hv : affine aFwd y bFwd = v) : sbox x = v := by
  rw [sbox, gfinv_eq_of_gfmul_eq_one hone, hv]

/-! ### Entries the spec writes out -/

theorem sbox_0x00 : sbox 0x00 = 0x63 := by decide
theorem sbox_0x01 : sbox 0x01 = 0x7C := sbox_eq_of_gfmul_eq_one (y := 0x01) (by decide) (by decide)
theorem sbox_0x02 : sbox 0x02 = 0x77 := sbox_eq_of_gfmul_eq_one (y := 0x8D) (by decide) (by decide)
theorem sbox_0x09 : sbox 0x09 = 0x01 := sbox_eq_of_gfmul_eq_one (y := 0x4F) (by decide) (by decide)
theorem sbox_0x52 : sbox 0x52 = 0x00 := sbox_eq_of_gfmul_eq_one (y := 0x05) (by decide) (by decide)
theorem sbox_0x53 : sbox 0x53 = 0xED := sbox_eq_of_gfmul_eq_one (y := 0xCA) (by decide) (by decide)
theorem sbox_0x6A : sbox 0x6A = 0x02 := sbox_eq_of_gfmul_eq_one (y := 0x91) (by decide) (by decide)
theorem sbox_0x7D : sbox 0x7D = 0xFF := sbox_eq_of_gfmul_eq_one (y := 0xFA) (by decide) (by decide)
theorem sbox_0xFF : sbox 0xFF = 0x16 := sbox_eq_of_gfmul_eq_one (y := 0x1C) (by decide) (by decide)

/-! ### No byte is its own entry -/

/-- `A_FWD` multiplies by x^4+x^3+x^2+x+1 modulo x^8+1 (its rows are rotations of the first, `42_affine.md` R91): the
product's bits from 8 on wrap around. -/
theorem matVec_aFwd_eq_clmul (x : Byte) :
    matVec aFwd x = BitVec.ofNat 8 (clmul 0x1F x.toNat) ^^^ BitVec.ofNat 8 (clmul 0x1F x.toNat >>> 8) := by
  have hadd : XorAdditive fun x =>
      BitVec.ofNat 8 (clmul 0x1F x.toNat) ^^^ BitVec.ofNat 8 (clmul 0x1F x.toNat >>> 8) := by
    intro u v
    simp only [BitVec.toNat_xor, clmul_xor_right, Nat.shiftRight_xor_distrib, BitVec.ofNat_xor]
    ac_rfl
  exact (xorAdditive_matVec aFwd).ext hadd (by decide) x

/-- No byte is inverse to its own forward transform. No law rules it out, so the 256 products are computed, the
transform by its multiplication. -/
theorem gfmul_affine_aFwd_ne_one (y : Byte) : gfmul y (affine aFwd y bFwd) ≠ 1 := by
  rw [affine, matVec_aFwd_eq_clmul]
  revert y
  decide

/-- The forward S-box has no fixed point (`43_sbox.md` R101): the inverse of one would be inverse to its own forward
transform. -/
theorem sbox_ne_self (x : Byte) : sbox x ≠ x := by
  intro hfix
  have hx : x ≠ 0 := by
    rintro rfl
    exact absurd (sbox_0x00.symm.trans hfix) (by decide)
  refine gfmul_affine_aFwd_ne_one (gfinv x) ?_
  rw [← sbox, hfix, gfmul_comm, gfmul_gfinv hx]

/-- The inverse S-box has no fixed point (`43_sbox.md` R104), as the forward one has none. -/
theorem invSbox_ne_self (x : Byte) : invSbox x ≠ x := by
  intro hfix
  have hback := sbox_invSbox x
  rw [hfix] at hback
  exact sbox_ne_self x hback

/-! ### The 16 by 16 layout -/

/-- The row and the column of an entry are its index divided by 16 and the rest (`43_sbox.md` R108). -/
theorem tablePosition_eq (i : Byte) : tablePosition i = (i.toNat / 16, i.toNat % 16) := by
  have := i.isLt
  have hrow : slice i.toNat 7 4 = i.toNat / 16 := by
    simp only [slice, Nat.shiftRight_eq_div_pow]
    omega
  rw [tablePosition, hrow]
  rfl

/-! ### The answers of SBOX and ISBOX -/

/-- SBOX answers the entry, zero-extended. -/
theorem answers_sbox {x : Byte} {v : Wide} (h : zext16 (sbox x) = v) : Spec.answers (.sbox x) v := by
  subst h
  exact exec_sbox x

/-- ISBOX answers the entry of the inverse table, zero-extended. -/
theorem answers_isbox {x : Byte} {v : Wide} (h : zext16 (invSbox x) = v) : Spec.answers (.isbox x) v := by
  subst h
  exact exec_isbox x

/-- SBOX answers an entry known as a byte. -/
theorem answers_sbox_of_eq {x v : Byte} (h : sbox x = v) : Spec.answers (.sbox x) (zext16 v) :=
  answers_sbox (congrArg zext16 h)

/-- ISBOX answers the index of an entry of the forward table. -/
theorem answers_isbox_of_sbox_eq {x v : Byte} (h : sbox x = v) : Spec.answers (.isbox v) (zext16 x) :=
  answers_isbox (congrArg zext16 (invSbox_eq_of_sbox_eq h))

/-- SBOX is GFINV followed by AFFF of its result (`43_sbox.md` R101). -/
theorem exec_sbox_eq_exec_afff (x : Byte) (s : State) : exec (.sbox x) s = exec (.afff (gfinv x)) s := by
  rw [exec_sbox, exec_afff, sbox]

/-- ISBOX is AFFI followed by GFINV of its result (`43_sbox.md` R104). -/
theorem exec_isbox_eq_exec_gfinv (x : Byte) (s : State) :
    exec (.isbox x) s = exec (.gfinv (affine aInv x bInv)) s := by
  rw [exec_isbox, exec_gfinv, invSbox]

/-! ### The words of the no-operand format -/

/-- An operation that the decoder reads by the no-operand format has the words of that format: with Z = 0 the
operation, else IllegalCommand (`30_encoding.md` R53). -/
theorem noOperandWords_of_decode {op : Nat} (hop : op < 16) {i : Instr}
    (h : ∀ {w : CmdWord}, opField w = BitVec.ofNat 4 op → decode w = decodeNoOperand w i) :
    Spec.noOperandWords op i := by
  have hword (y x : Byte) :
      decode (Spec.fieldsWord op y x) = if y = 0 ∧ x = 0 then .legal i else .illegal .nonzeroZ := by
    simp only [fieldsWord_eq hop, h (opField_wordOfFields _ _ _), decodeNoOperand, zField_eq_zero_iff,
      yField_wordOfFields, xField_wordOfFields]
  exact ⟨(hword 0 0).trans (if_pos ⟨rfl, rfl⟩),
    fun x y s hne => acceptWord_illegal ((hword y x).trans (if_neg hne)) s⟩

/-! ### The beats of a table -/

/-- Beat `i` of a table is the beat of entry `i` (`43_sbox.md` R106, R107). -/
theorem tableBeats_getElem? (inv : Bool) (i : Byte) :
    (tableBeats inv)[i.toNat]? = some (.table i (tableEntry inv i)) := by
  simp [tableBeats, Config.tableLength, i.isLt]

/-- The words of a table's first three beats, by its first three entries. -/
theorem tableBeats_first_words (inv : Bool) {u v w : Byte} (hu : tableEntry inv 0 = u) (hv : tableEntry inv 1 = v)
    (hw : tableEntry inv 2 = w) : ((tableBeats inv).map fun b => b.toWord.toNat).take 3 =
      [(Beat.table 0 u).toWord.toNat, (Beat.table 1 v).toWord.toNat, (Beat.table 2 w).toWord.toNat] := by
  subst hu hv hw
  rw [← List.map_take, tableBeats_take_succ inv (by decide), tableBeats_take_succ inv (by decide),
    tableBeats_take_succ inv (by decide)]
  rfl

/-- The word of a table's last beat, by its last entry. -/
theorem tableBeats_last_word (inv : Bool) {v : Byte} (hv : tableEntry inv 255 = v) :
    ((tableBeats inv).map fun b => b.toWord.toNat).getLast? = some (Beat.table 255 v).toWord.toNat := by
  have hlast : (tableBeats inv)[255]? = some (.table 255 (tableEntry inv 255)) := tableBeats_getElem? inv 255
  rw [List.getLast?_map, List.getLast?_eq_getElem?, tableBeats_length, hlast, hv]
  rfl

/-- The beats from entry `i` on are its beat and those of the entries after it. -/
theorem tableBeats_drop_toNat (inv : Bool) (i : Byte) :
    (tableBeats inv).drop i.toNat = .table i (tableEntry inv i) :: (tableBeats inv).drop (i.toNat + 1) := by
  rw [tableBeats_drop inv i.isLt, BitVec.ofNat_toNat, BitVec.setWidth_eq]

/-- A running table emits the beats of its entries still to come, and the sequencer is then at rest (`10_state.md` R27):
by induction on the number of entries after the next one. -/
theorem runSteps_running {n : Nat} {s : State} (hrun : s.seq.run = true) (hn : s.seq.idx.toNat + n = 255)
    (hcore : s.NoResetFor (n + 1)) :
    runSteps (n + 1) s = .next { s with
      seq := .idle
      trace := s.trace ++ (tableBeats s.seq.inv).drop s.seq.idx.toNat
      turns := s.turns.drop (n + 1) } := by
  induction n generalizing s with
  | zero =>
    obtain ⟨hturn, _⟩ := noResetFor_succ hcore
    have hidx : s.seq.idx = 255 := BitVec.eq_of_toNat_eq hn
    have hnone : (tableBeats s.seq.inv).drop (s.seq.idx.toNat + 1) = [] :=
      List.drop_eq_nil_of_le (by rw [tableBeats_length]; omega)
    rw [runSteps_succ (step_emit hturn hrun), runSteps_zero, tableBeats_drop_toNat, hnone]
    exact congrArg Host.Outcome.next (State.ext_fields (if_pos hidx) rfl rfl rfl (by simp))
  | succ n ih =>
    obtain ⟨hturn, hrest⟩ := noResetFor_succ hcore
    have hne : s.seq.idx ≠ 255 := fun h => by simp [h] at hn
    have hseq : s.dropTurn.emitEntry.seq = { s.seq with idx := s.seq.idx + 1 } := Seq.advance_of_ne hne
    have hidx : (s.seq.idx + 1).toNat = s.seq.idx.toNat + 1 :=
      BitVec.toNat_add_of_lt (show s.seq.idx.toNat + 1 < 256 by omega)
    have hrec := ih (s := s.dropTurn.emitEntry) (by rw [hseq]; exact hrun) (by rw [hseq, hidx]; omega) hrest
    rw [runSteps_succ (step_emit hturn hrun), hrec]
    refine congrArg Host.Outcome.next (State.ext_fields rfl rfl ?_ rfl (by simp))
    simp only [hseq, hidx, tableBeats_drop_toNat s.seq.inv s.seq.idx]
    simp

/-- The word of an operation that starts a table makes an idle machine answer the beats of that table: one ACCEPT step
and 256 EMIT steps (`43_sbox.md` R106, R107). -/
theorem emitsTable_of_decode {w : CmdWord} {i : Instr} {inv : Bool} (hd : decode w = .legal i)
    (hexec : ∀ s, exec i s = .next (s.startTable inv)) : Spec.emitsTable w inv := by
  intro s ws hseq hw hcore
  obtain ⟨hturn, hrest⟩ := noResetFor_succ hcore
  have hstep : step s = .next (s.dropTurn.dropWord.startTable inv) := by
    rw [step_accept hturn (by rw [hseq]) hw, acceptWord_legal hd, hexec]
  rw [runSteps_succ hstep, runSteps_running (s := s.dropTurn.dropWord.startTable inv) rfl rfl hrest]
  exact congrArg Host.Outcome.next (State.ext_fields hseq.symm rfl rfl (by simp [hw]) (by simp))

/-- Only RESET disturbs a running table (`43_sbox.md` R106): ACCEPT needs a resting sequencer, and RESET appends no
beat. -/
theorem reset_alone_disturbs_table : Spec.onlyResetDisturbsTable := by
  refine ⟨fun s w hrun hk => ?_, fun s ts _ hts => ?_⟩
  · obtain ⟨hrest, _⟩ := enabled_accept_iff.mp (enabled_of_nextKind hk)
    exact absurd (hrest.symm.trans hrun) Bool.false_ne_true
  · rw [step_eq_take (nextKind_of_resetTurn (by rw [hts, List.head?_cons]))]
    exact congrArg Host.Outcome.next (State.ext_fields rfl rfl rfl rfl (by simp [hts]))

/-! ### The statements -/

/-- Settles O43: the inverse S-box is the inverse map, and each vector by the inverse of its index. -/
theorem sboxPermutation : Obligations.SboxPermutation := by
  unfold Obligations.SboxPermutation
  refine ⟨sbox_bijective, sbox_bijective.existsUnique, sbox_0x00, sbox_0x01, sbox_0x53, sbox_0xFF, ?_, ?_, ?_⟩
  · rw [gfinv_one]
    decide
  · rw [gfinv_0x53]
    decide
  · rw [gfinv_eq_of_gfmul_eq_one (y := 0x1C) (by decide)]
    decide

/-- Settles O44: the transforms and the inversion undo each other in turn; each vector by the forward S-box. -/
theorem invSboxIsInverse : Obligations.InvSboxIsInverse := by
  unfold Obligations.InvSboxIsInverse
  exact ⟨invSbox_sbox, sbox_invSbox, invSbox_bijective, invSbox_ne_self, invSbox_eq_of_sbox_eq sbox_0x00,
    invSbox_eq_of_sbox_eq sbox_0x01, invSbox_eq_of_sbox_eq sbox_0x53, gfinv_eq_of_gfmul_eq_one (by decide),
    gfinv_eq_of_gfmul_eq_one (by decide), gfinv_eq_of_gfmul_eq_one (by decide)⟩

/-- Settles O46: row and column are quotient and rest by 16. -/
theorem tablePositionsRowMajor : Obligations.TablePositionsRowMajor := by
  unfold Obligations.TablePositionsRowMajor
  simp only [tablePosition_eq]
  refine ⟨fun r c => ?_, fun i => ?_, fun i j => ?_⟩
  · have := r.isLt
    have := c.isLt
    rw [BitVec.toNat_ofNat, Prod.mk.injEq]
    omega
  · omega
  · omega

/-- Settles O53: the words by the one-operand format, the result by the S-box. -/
theorem sboxOperation : Obligations.SboxOperation := by
  unfold Obligations.SboxOperation
  exact ⟨oneOperandWords_of_decode (by decide) decode_sbox, fun x => answers_sbox (zext16_eq_ofNat _),
    answers_sbox_of_eq sbox_0x00, answers_sbox_of_eq sbox_0x01, answers_sbox_of_eq sbox_0xFF,
    answers_sbox_of_eq sbox_0x52, sbox_ne_self, exec_sbox_eq_exec_afff, by decide, answers_sbox_of_eq sbox_0x53⟩

/-- Settles O54: the words by the one-operand format, the result by the S-box read backwards. -/
theorem isboxOperation : Obligations.IsboxOperation := by
  unfold Obligations.IsboxOperation
  exact ⟨oneOperandWords_of_decode (by decide) decode_isbox, fun x => answers_isbox (zext16_eq_ofNat _),
    answers_isbox_of_sbox_eq sbox_0x00, answers_isbox_of_sbox_eq sbox_0x52, answers_isbox_of_sbox_eq sbox_0x01,
    answers_isbox_of_sbox_eq sbox_0xFF, invSbox_ne_self, exec_isbox_eq_exec_gfinv, by decide,
    answers_isbox_of_sbox_eq sbox_0x53⟩

/-- Settles O55: the words by the no-operand format, the run by induction over the entries. -/
theorem gensOperation : Obligations.GensOperation := by
  unfold Obligations.GensOperation
  refine ⟨noOperandWords_of_decode (by decide) decode_gens, exec_gens, fun i => ?_, tableBeats_length false,
    emitsTable_of_decode (by decide) exec_gens, reset_alone_disturbs_table, ?_, ?_⟩
  · exact (tableBeats_getElem? false i).trans (congrArg some (table_beat_eq i _))
  · exact (tableBeats_first_words false sbox_0x00 sbox_0x01 sbox_0x02).trans (by decide)
  · exact (tableBeats_last_word false sbox_0xFF).trans (by decide)

/-- Settles O56: as O55, on the inverse table. -/
theorem geniOperation : Obligations.GeniOperation := by
  unfold Obligations.GeniOperation
  refine ⟨noOperandWords_of_decode (by decide) decode_geni, exec_geni, fun i => ?_, tableBeats_length true,
    emitsTable_of_decode (by decide) exec_geni, reset_alone_disturbs_table, ?_, ?_⟩
  · exact (tableBeats_getElem? true i).trans (congrArg some (table_beat_eq i _))
  · exact (tableBeats_first_words true (invSbox_eq_of_sbox_eq sbox_0x52) (invSbox_eq_of_sbox_eq sbox_0x09)
      (invSbox_eq_of_sbox_eq sbox_0x6A)).trans (by decide)
  · exact (tableBeats_last_word true (invSbox_eq_of_sbox_eq sbox_0x7D)).trans (by decide)

end Sys2Proof.Machine
end

section
/-!
PROOFS. The statement of `44_system.md`: STAT (R115), and STATUS over a run after an illegal word (`10_state.md` R20).
-/

namespace Sys2Proof.Machine

/-! ### A run, step by step -/

/-- A run of one more step that answers a state took a first step, and ran on from there. -/
theorem exists_step_of_runSteps_succ {n : Nat} {s t : State} (h : runSteps (n + 1) s = .next t) :
    ∃ u, step s = .next u ∧ runSteps n u = .next t := by
  simp only [runSteps, Host.Core.run] at h
  split at h
  next u hs => exact ⟨u, hs, h⟩
  all_goals cases h

/-- No operation touches the turns. -/
theorem exec_turns {i : Instr} {s t : State} (h : exec i s = .next t) : t.turns = s.turns := by
  rcases exec_cases i s with ⟨v, hv⟩ | ⟨inv, hv⟩ <;> cases h.symm.trans hv <;> rfl

/-- Every step passes exactly one turn. -/
theorem step_turns {s t : State} (h : step s = .next t) : t.turns = s.turns.tail := by
  rcases step_cases s with ⟨_, hs⟩ | ⟨_, _, hs⟩ | ⟨_, _, _, _, _, _, _, hs⟩ | ⟨_, _, _, _, _, _, _, hs⟩ |
    ⟨_, _, _, hs⟩
  case inr.inr.inr.inl => exact exec_turns (hs.symm.trans h)
  all_goals
    cases h.symm.trans hs
    rfl

/-! ### FAULT stays set until a RESET -/

/-- On CORE's turn the next step is no RESET. -/
theorem nextKind_ne_reset {s : State} (hc : s.CoreTurn) : s.nextKind ≠ some .reset := by
  rw [nextKind_of_coreTurn hc, State.coreStep]
  split <;> simp

/-- No step of CORE clears FAULT (`10_state.md` R19). -/
theorem step_keeps_fault {s t : State} (hc : s.CoreTurn) (hf : s.fault = true) (h : step s = .next t) :
    t.fault = true := by
  obtain ⟨_, hnext, _⟩ := faultFlagRule
  rw [hnext s t h]
  split
  next hk => exact absurd hk (nextKind_ne_reset hc)
  next => rw [hf, Bool.true_or]
  next => exact hf

/-- FAULT, once set, is set after every run in which no RESET is placed: by induction on the number of steps. -/
theorem runSteps_keeps_fault {n : Nat} {s t : State} (hcore : s.NoResetFor n) (hf : s.fault = true)
    (h : runSteps n s = .next t) : t.fault = true := by
  induction n generalizing s with
  | zero =>
    cases h
    exact hf
  | succ n ih =>
    obtain ⟨u, hstep, hrun⟩ := exists_step_of_runSteps_succ h
    obtain ⟨hturn, hrest⟩ := noResetFor_succ hcore
    have hnext : u.NoResetFor n := by
      rw [State.NoResetFor, step_turns hstep]
      exact hrest
    exact ih hnext (step_keeps_fault hturn hf hstep) hrun

/-! ### The statement -/

/-- STAT answers STATUS: bit 0 is FAULT and the other bits are zero (`10_state.md` R20). -/
theorem exec_stat_eq (s : State) :
    exec .stat s = .next { s with trace := s.trace ++ [⟨false, true, 0, if s.fault then 1 else 0⟩] } := by
  rw [exec_stat, statusOf_eq]
  rfl

/-- Settles O57: the words by the no-operand format, the answer by STATUS, and after an illegal word FAULT by induction
on the run. -/
theorem statOperation : Obligations.StatOperation := by
  unfold Obligations.StatOperation
  refine ⟨noOperandWords_of_decode (by decide) decode_stat, exec_stat_eq, fun s hk => ?_, State.resetCore_fault,
    fun n s t hcore hrun => runSteps_keeps_fault hcore s.raiseIllegal_fault hrun, ?_⟩
  · obtain ⟨hrest, _⟩ := enabled_accept_iff.mp (enabled_of_nextKind hk)
    exact hrest
  · exact ⟨{ State.reset with fault := true, trace := [.ok 0, .error, .ok 1] }, rfl, by decide⟩

end Sys2Proof.Machine
end

section
/-!
PROOFS. The statement of `60_exceptions.md`: no operand of a legal command raises anything (R122).
-/

namespace Sys2Proof.Machine

/-- The ACCEPT step of a legal word keeps FAULT and appends either one result beat (the single-result operations) or no
beat (GENS and GENI), so no error beat (`60_exceptions.md` R122). -/
theorem exec_appends_no_error (i : Instr) (s : State) :
    ∃ t bs, exec i s = .next t ∧ t.fault = s.fault ∧ t.trace = s.trace ++ bs ∧ ∀ b ∈ bs, b.err = false := by
  rcases exec_cases i s with ⟨v, hv⟩ | ⟨inv, hv⟩
  · have hresult : ∀ b ∈ [Beat.ok v], b.err = false := List.forall_mem_singleton.mpr rfl
    exact ⟨_, [.ok v], hv, s.emitResult_fault v, s.emitResult_trace v, hresult⟩
  · exact ⟨_, [], hv, s.startTable_fault inv, (s.startTable_trace inv).trans (List.append_nil _).symm, nofun⟩

/-- Settles O23: the operations by the two shapes of an ACCEPT step, the inverse of zero by the values of GFINV and of
the S-box at 0. -/
theorem legalWordsNeverFault : Obligations.LegalWordsNeverFault := by
  unfold Obligations.LegalWordsNeverFault
  exact ⟨exec_appends_no_error, answers_gfinv (congrArg zext16 gfinv_zero), answers_sbox_of_eq sbox_0x00,
    answers_isbox_of_sbox_eq sbox_0x00⟩

end Sys2Proof.Machine
end

section
/-!
PROOFS. The statement of `70_reset_and_hazards.md`: the RESET step (R140), and two RESETs in a row (R141).
-/

namespace Sys2Proof.Machine

/-- On the host's turn the step is RESET: CORE rests with FAULT clear, and of the rest only the turn is gone
(`70_reset_and_hazards.md` R140). -/
theorem step_reset {s : State} {ts : List Turn} (h : s.turns = .reset :: ts) :
    step s = .next { s with seq := ⟨false, false, 0⟩, fault := false, turns := ts } := by
  have hturn : s.turns.head? = some .reset := by rw [h, List.head?_cons]
  have hrest : s.dropTurn.turns = ts := congrArg List.tail h
  rw [step_eq_take (nextKind_of_resetTurn hturn)]
  exact congrArg Host.Outcome.next (State.ext_fields rfl rfl rfl rfl hrest)

/-- Settles O12: the second RESET writes again the fields that the first wrote, and nothing else. -/
theorem resetStep : Obligations.ResetStep := by
  unfold Obligations.ResetStep
  refine ⟨fun s ts h => step_reset h, fun s ts h => ?_⟩
  calc runSteps 2 s
    _ = runSteps 1 { s with seq := ⟨false, false, 0⟩, fault := false, turns := .reset :: ts } :=
      runSteps_succ (step_reset h) 1
    _ = .next { s with seq := ⟨false, false, 0⟩, fault := false, turns := ts } := runSteps_succ (step_reset rfl) 0
    _ = step { s with turns := .reset :: ts } := (step_reset (s := { s with turns := .reset :: ts }) rfl).symm

end Sys2Proof.Machine
end

section
/-!
PROOFS. The statements of `30_encoding.md` about decoder and encoder as inverses and the counts of words (R58), the
words of the beats (R62), the worked words (section 5) and the assembler (R63).
-/

namespace Sys2Proof.Machine

/-! ### Decoder and encoder -/

/-- The word built from given fields is the one word that has them. -/
theorem wordOfFields_eq {w : CmdWord} {op : BitVec 4} {y x : Byte} (hop : opField w = op) (hy : yField w = y)
    (hx : xField w = x) : wordOfFields op y x = w := by
  subst hop hy hx
  exact wordOfFields_fields w

/-- A word of the one-operand format built with Y = 0 decodes to its operation (`30_encoding.md` R53). -/
theorem decodeOneOperand_wordOfFields (op : BitVec 4) (x : Byte) (i : Byte → Instr) :
    decodeOneOperand (wordOfFields op 0 x) (i (xField (wordOfFields op 0 x))) = .legal (i x) :=
  decodeOneOperand_eq_legal.mpr ⟨yField_wordOfFields _ _ _, by rw [xField_wordOfFields]⟩

/-- Decoding undoes encoding, by the format of the operation (`30_encoding.md` R58). -/
theorem decode_encode (i : Instr) : decode (encode i) = .legal i := by
  cases i with
  | clmul x y =>
    exact (decode_clmul (opField_wordOfFields _ _ _)).trans (by rw [xField_wordOfFields, yField_wordOfFields])
  | pmod z => exact (decode_pmod (opField_wordOfWide _ _)).trans (by rw [zField_wordOfWide])
  | gfmul x y =>
    exact (decode_gfmul (opField_wordOfFields _ _ _)).trans (by rw [xField_wordOfFields, yField_wordOfFields])
  | gfinv x => exact (decode_gfinv (opField_wordOfFields _ _ _)).trans (decodeOneOperand_wordOfFields _ x .gfinv)
  | afff x => exact (decode_afff (opField_wordOfFields _ _ _)).trans (decodeOneOperand_wordOfFields _ x .afff)
  | affi x => exact (decode_affi (opField_wordOfFields _ _ _)).trans (decodeOneOperand_wordOfFields _ x .affi)
  | sbox x => exact (decode_sbox (opField_wordOfFields _ _ _)).trans (decodeOneOperand_wordOfFields _ x .sbox)
  | isbox x => exact (decode_isbox (opField_wordOfFields _ _ _)).trans (decodeOneOperand_wordOfFields _ x .isbox)
  | gens | geni | stat => decide

/-- Encoding undoes decoding of a legal word: the operation holds its operands, and the other fields are OP and zero
(`30_encoding.md` R58). -/
theorem encode_of_decode {w : CmdWord} {i : Instr} (h : decode w = .legal i) : encode i = w := by
  unfold decode at h
  split at h <;> rename_i hop
  case h_12 => cases h
  case h_1 | h_3 =>
    cases h
    exact wordOfFields_eq hop rfl rfl
  case h_2 =>
    cases h
    rw [encode, ← wordOfWide_fields w, hop, zField_wordOfWide]
    rfl
  case h_4 | h_5 | h_6 | h_7 | h_8 =>
    obtain ⟨hy, rfl⟩ := decodeOneOperand_eq_legal.mp h
    exact wordOfFields_eq hop hy rfl
  all_goals
    obtain ⟨hz, rfl⟩ := decodeNoOperand_eq_legal.mp h
    obtain ⟨hy, hx⟩ := (zField_eq_zero_iff w).mp hz
    exact wordOfFields_eq hop hy hx

/-! ### Counting words by their fields -/

/-- Numbers below `a * b`, counted by a condition on the quotient and one on the rest. -/
theorem card_filter_range_mul (a b : Nat) (p q : Nat → Prop) [DecidablePred p] [DecidablePred q] :
    ((Finset.range (a * b)).filter fun n => p (n / b) ∧ q (n % b)).card =
      ((Finset.range a).filter p).card * ((Finset.range b).filter q).card := by
  rw [← Finset.card_product]
  refine Finset.card_nbij' (fun n => (n / b, n % b)) (fun m => b * m.1 + m.2) ?_ ?_ ?_ ?_
  · intro n hn
    simp only [Finset.coe_filter, Finset.mem_range, Set.mem_ofPred_eq] at hn
    obtain ⟨hlt, hp, hq⟩ := hn
    have hb : 0 < b := Nat.pos_of_mul_pos_left (Nat.zero_lt_of_lt hlt)
    simp [Nat.div_lt_of_lt_mul (Nat.mul_comm a b ▸ hlt), Nat.mod_lt n hb, hp, hq]
  · intro m hm
    simp only [Finset.coe_product, Finset.coe_filter, Finset.mem_range, Set.mem_prod, Set.mem_ofPred_eq] at hm
    obtain ⟨⟨hq, hp⟩, hr, hq'⟩ := hm
    have hlt : b * m.1 + m.2 < a * b := by nlinarith
    have hb : 0 < b := Nat.zero_lt_of_lt hr
    simp [hlt, Nat.mul_add_div hb, Nat.div_eq_of_lt hr, Nat.mod_eq_of_lt hr, hp, hq']
  · intro n _
    exact Nat.div_add_mod n b
  · intro m hm
    simp only [Finset.coe_product, Finset.coe_filter, Finset.mem_range, Set.mem_prod, Set.mem_ofPred_eq] at hm
    obtain ⟨_, hr, _⟩ := hm
    have hb : 0 < b := Nat.zero_lt_of_lt hr
    simp [Nat.mul_add_div hb, Nat.div_eq_of_lt hr, Nat.mod_eq_of_lt hr]

/-- All but one of the numbers below `n` are not 0. -/
theorem card_filter_range_ne_zero {n : Nat} (hn : 0 < n) : ((Finset.range n).filter (· ≠ 0)).card = n - 1 := by
  rw [Finset.filter_ne', Finset.card_erase_of_mem (Finset.mem_range.mpr hn), Finset.card_range]

/-- The 16-bit numbers whose upper byte is not 0. -/
theorem card_upper_byte_ne_zero : ((Finset.range 65536).filter (· / 256 ≠ 0)).card = 65280 := by
  have h := card_filter_range_mul 256 256 (· ≠ 0) fun _ => True
  simp only [and_true, Finset.filter_true, card_filter_range_ne_zero (n := 256) (by decide), Finset.card_range] at h
  exact h

/-- How many of the 2^20 command words meet a condition on OP and one on bits 15:0. -/
theorem card_words (p q : Nat → Prop) [DecidablePred p] [DecidablePred q] (r : CmdWord → Prop) [DecidablePred r]
    (h : ∀ w : CmdWord, r w ↔ p (w.toNat / 65536) ∧ q (w.toNat % 65536)) :
    ((Finset.range (2 ^ 20)).filter fun n => r (BitVec.ofNat 20 n)).card =
      ((Finset.range 16).filter p).card * ((Finset.range 65536).filter q).card := by
  rw [← card_filter_range_mul, show 16 * 65536 = 2 ^ 20 by norm_num]
  refine congrArg Finset.card (Finset.filter_congr fun n hn => ?_)
  rw [h, BitVec.toNat_ofNat, Nat.mod_eq_of_lt (Finset.mem_range.mp hn)]

theorem card_reservedOp :
    ((Finset.range (2 ^ 20)).filter fun n => decode (BitVec.ofNat 20 n) = .illegal .reservedOp).card = 327680 := by
  rw [card_words (fun op => op = 0 ∨ 12 ≤ op) (fun _ => True) (decode · = .illegal .reservedOp)
    fun w => by rw [decode_eq_reservedOp_iff, and_true], Finset.filter_true, Finset.card_range]
  rfl

theorem card_nonzeroY :
    ((Finset.range (2 ^ 20)).filter fun n => decode (BitVec.ofNat 20 n) = .illegal .nonzeroY).card = 326400 := by
  rw [card_words (fun op => 4 ≤ op ∧ op ≤ 8) (· / 256 ≠ 0) (decode · = .illegal .nonzeroY)
    fun w => by rw [decode_eq_nonzeroY_iff]; omega, card_upper_byte_ne_zero]
  rfl

theorem card_nonzeroZ :
    ((Finset.range (2 ^ 20)).filter fun n => decode (BitVec.ofNat 20 n) = .illegal .nonzeroZ).card = 196605 := by
  rw [card_words (fun op => 9 ≤ op ∧ op ≤ 11) (· ≠ 0) (decode · = .illegal .nonzeroZ)
    fun w => by rw [decode_eq_nonzeroZ_iff, and_assoc], card_filter_range_ne_zero (by decide)]
  rfl

/-- Every word of a set is legal or illegal by exactly one cause. -/
theorem card_verdicts (s : Finset Nat) :
    (s.filter fun n => (decodeLegal (BitVec.ofNat 20 n)).isSome = true).card +
      (s.filter fun n => decode (BitVec.ofNat 20 n) = .illegal .reservedOp).card +
      (s.filter fun n => decode (BitVec.ofNat 20 n) = .illegal .nonzeroY).card +
      (s.filter fun n => decode (BitVec.ofNat 20 n) = .illegal .nonzeroZ).card = s.card := by
  simp only [Finset.card_filter, ← Finset.sum_add_distrib]
  rw [Finset.card_eq_sum_ones]
  refine Finset.sum_congr rfl fun n _ => ?_
  unfold decodeLegal
  cases decode (BitVec.ofNat 20 n) with
  | legal i => simp
  | illegal c => cases c <;> simp

/-! ### The word of a beat -/

/-- The word of a beat, given the number of its fields above DATA (`30_encoding.md` R60). -/
theorem beat_toWord_toNat {e l : Bool} {i : Byte} {d : Wide} {high n : Nat}
    (hhigh : (e.toNat <<< 25) ||| (l.toNat <<< 24) ||| (i.toNat <<< 16) = high) (hd : d.toNat = n) :
    (⟨e, l, i, d⟩ : Beat).toWord.toNat = high ||| n := by
  rw [Beat.toWord_toNat, hhigh, hd]

/-! ### The assembler -/

/-- The word built from fields that are numbers, as a number (`30_encoding.md` R51). -/
theorem wordOfFields_ofNat {op x y : Nat} (hop : op < 16) (hx : x ≤ 255) (hy : y ≤ 255) :
    wordOfFields (BitVec.ofNat 4 op) (BitVec.ofNat 8 y) (BitVec.ofNat 8 x) =
      BitVec.ofNat 20 (op <<< 16 ||| y <<< 8 ||| x) := by
  rw [← fieldsWord_eq hop, Spec.fieldsWord, BitVec.toNat_ofNat, BitVec.toNat_ofNat, Nat.mod_eq_of_lt (by omega),
    Nat.mod_eq_of_lt (by omega)]

/-- A two-operand statement gives its word exactly for operands of 8 bits. -/
theorem assemble_twoOperands {t : Stmt} {i : Byte → Byte → Instr} {op x y : Nat} (hop : op < 16)
    (hwf : t.wf = (decide (x ≤ 255) && decide (y ≤ 255)))
    (hin : t.inputs = commandOf (i (BitVec.ofNat 8 x) (BitVec.ofNat 8 y)))
    (henc : ∀ x y, encode (i x y) = wordOfFields (BitVec.ofNat 4 op) y x) :
    assemble t = if x ≤ 255 ∧ y ≤ 255 then some [.command (BitVec.ofNat 20 (op <<< 16 ||| y <<< 8 ||| x))] else none := by
  rw [assemble, hwf, hin, commandOf, henc]
  by_cases h : x ≤ 255 ∧ y ≤ 255
  · obtain ⟨hx, hy⟩ := h
    simp [hx, hy, wordOfFields_ofNat hop hx hy]
  · rw [if_neg h, if_neg (by simpa using h)]

/-- A one-operand statement gives its word exactly for an operand of 8 bits. -/
theorem assemble_oneOperand {t : Stmt} {i : Byte → Instr} {op x : Nat} (hop : op < 16)
    (hwf : t.wf = decide (x ≤ 255)) (hin : t.inputs = commandOf (i (BitVec.ofNat 8 x)))
    (henc : ∀ x, encode (i x) = wordOfFields (BitVec.ofNat 4 op) 0 x) :
    assemble t = if x ≤ 255 then some [.command (BitVec.ofNat 20 (op <<< 16 ||| x))] else none := by
  rw [assemble, hwf, hin, commandOf, henc]
  by_cases h : x ≤ 255
  · have hword := wordOfFields_ofNat (y := 0) hop h (by decide)
    rw [Nat.zero_shiftLeft, Nat.or_zero] at hword
    simp only [h, decide_true, if_true]
    exact congrArg (some [HostInput.command ·]) hword
  · simp [h]

/-- PMOD's statement gives its word exactly for an operand of 16 bits. -/
theorem assemble_pmod (z : Nat) :
    assemble (.pmod z) = if z ≤ 65535 then some [.command (BitVec.ofNat 20 (0x20000 ||| z))] else none := by
  rw [assemble, Stmt.wf, Stmt.inputs, commandOf, encode]
  by_cases h : z ≤ 65535
  · have hword := ofNat_or_eq_wordOfWide (BitVec.ofNat 16 z)
    rw [BitVec.toNat_ofNat, Nat.mod_eq_of_lt (by omega)] at hword
    simp [h, hword]
  · simp [h]

/-- `.word` gives the number itself, exactly if it has at most 20 bits. -/
theorem assemble_word (n : Nat) :
    assemble (.word n) = if n ≤ 0xFFFFF then some [.command (BitVec.ofNat 20 n)] else none := by
  simp [assemble, Stmt.wf, Stmt.inputs]

/-! ### The statements -/

/-- Settles O1: the fields of a word by the format of its operation, in both directions. -/
theorem decodeEncodeInverse : Obligations.DecodeEncodeInverse := by
  unfold Obligations.DecodeEncodeInverse
  exact ⟨decode_encode, fun w i => encode_of_decode⟩

/-- Settles O5: each cause is a condition on OP and one on bits 15:0; the legal words are the rest. -/
theorem legalWordCounts : Obligations.LegalWordCounts := by
  unfold Obligations.LegalWordCounts
  have hsum := card_verdicts (Finset.range (2 ^ 20))
  rw [card_reservedOp, card_nonzeroY, card_nonzeroZ, Finset.card_range] at hsum
  have hrest {n : Nat} (h : n + 327680 + 326400 + 196605 = 2 ^ 20) : n = 197891 := by omega
  exact ⟨hrest hsum, card_reservedOp, card_nonzeroY, card_nonzeroZ⟩

/-- Settles O6. -/
theorem decodeWorkedWords : Obligations.DecodeWorkedWords := by
  unfold Obligations.DecodeWorkedWords
  decide

/-- Settles O8: the layout of a beat, with the constant fields of each kind. -/
theorem beatNotationWords : Obligations.BeatNotationWords := by
  unfold Obligations.BeatNotationWords
  exact ⟨fun v => beat_toWord_toNat (by decide) rfl,
    fun i v hi => beat_toWord_toNat (by rw [beq_eq_false_iff_ne.mpr hi]; simp) (zext16_toNat v),
    fun v => beat_toWord_toNat (by decide) (zext16_toNat v), by decide⟩

/-- Settles O29: each statement by its format. -/
theorem assemblerWordsAndRanges : Obligations.AssemblerWordsAndRanges := by
  unfold Obligations.AssemblerWordsAndRanges
  refine ⟨fun x y => ⟨?_, ?_⟩, assemble_pmod, fun x => ⟨?_, ?_, ?_, ?_, ?_⟩, assemble_word, by decide⟩
  · exact assemble_twoOperands (op := 1) (by decide) rfl rfl fun _ _ => rfl
  · exact assemble_twoOperands (op := 3) (by decide) rfl rfl fun _ _ => rfl
  · exact assemble_oneOperand (op := 4) (by decide) rfl rfl fun _ => rfl
  · exact assemble_oneOperand (op := 5) (by decide) rfl rfl fun _ => rfl
  · exact assemble_oneOperand (op := 6) (by decide) rfl rfl fun _ => rfl
  · exact assemble_oneOperand (op := 7) (by decide) rfl rfl fun _ => rfl
  · exact assemble_oneOperand (op := 8) (by decide) rfl rfl fun _ => rfl

end Sys2Proof.Machine
end

section
/-!
PROOFS. The statements about every step and every run (`10_state.md` R25, `20_memory.md` section 4, `60_exceptions.md`
R135, R136): what a step appends and takes, that it keeps the invariant, and that it never stops.
-/

namespace Sys2Proof.Machine

/-! ### What a step appends and takes -/

/-- An idle CORE on turn with no word presented lets the turn pass (`60_exceptions.md` R135). -/
theorem step_idle {s : State} (h : s.nextKind = none) : step s = .next s.dropTurn := by
  simp [step, stepMachine, h]

/-- Every step answers a next state (`60_exceptions.md` R136). -/
theorem exists_step (s : State) : ∃ t, step s = .next t := by
  rcases step_cases s with ⟨_, hs⟩ | ⟨_, _, hs⟩ | ⟨_, _, _, _, _, _, _, hs⟩ | ⟨_, _, i, _, _, _, _, hs⟩ |
    ⟨_, _, _, hs⟩
  case inr.inr.inr.inl =>
    rcases exec_cases i s.dropTurn.dropWord with ⟨v, hv⟩ | ⟨inv, hv⟩ <;> exact ⟨_, hs.trans hv⟩
  all_goals exact ⟨_, hs⟩

/-- No operation touches the waiting words. -/
theorem exec_words {i : Instr} {s t : State} (h : exec i s = .next t) : t.words = s.words := by
  rcases exec_cases i s with ⟨v, hv⟩ | ⟨inv, hv⟩ <;> cases h.symm.trans hv <;> rfl

/-- An ACCEPT takes the first waiting word, any other step takes none (`20_memory.md` R46). -/
theorem step_words {s t : State} (h : step s = .next t) :
    (∃ w, s.nextKind = some (.accept w) ∧ s.words = w :: t.words) ∨
    ((∀ w, s.nextKind ≠ some (.accept w)) ∧ t.words = s.words) := by
  rcases step_cases s with ⟨hk, hs⟩ | ⟨hk, _, hs⟩ | ⟨w, ws, _, hk, _, hw, _, hs⟩ | ⟨w, ws, i, hk, _, hw, _, hs⟩ |
    ⟨hk, _, _, hs⟩
  case inr.inr.inl =>
    cases h.symm.trans hs
    exact .inl ⟨w, hk, by simp [hw]⟩
  case inr.inr.inr.inl =>
    have htail : t.words = s.words.tail := exec_words (s := s.dropTurn.dropWord) (hs.symm.trans h)
    exact .inl ⟨w, hk, by rw [htail, hw, List.tail_cons]⟩
  all_goals
    cases h.symm.trans hs
    exact .inr ⟨by simp [hk], rfl⟩

/-- A step appends at most one beat (`20_memory.md` R45). -/
theorem step_trace {s t : State} (h : step s = .next t) : ∃ bs, t.trace = s.trace ++ bs ∧ bs.length ≤ 1 := by
  rcases threeKindsOfBeat s t h with hsame | ⟨b, hb, _⟩
  · exact ⟨[], by rw [hsame, List.append_nil], Nat.zero_le 1⟩
  · exact ⟨[b], hb, Nat.le_refl 1⟩

/-! ### What every step keeps -/

/-- The host's side, words and turns, is no part of the invariant. -/
theorem inv_congr {s t : State} (hseq : t.seq = s.seq) (hfault : t.fault = s.fault) (htrace : t.trace = s.trace)
    (h : s.Inv) : t.Inv := by
  obtain ⟨hidle, hwf, htable, hshown⟩ := h
  constructor
  · rwa [State.IdleInv, hseq]
  · rwa [State.TraceWf, htrace]
  · rwa [State.TableSoFar, hseq, htrace]
  · rwa [State.FaultShown, hfault, htrace]

/-- A trace stays well formed with one more well-formed beat. -/
theorem traceWf_append {tr : List Beat} {b : Beat} (h : ∀ c ∈ tr, c.wf = true) (hb : b.wf = true) :
    ∀ c ∈ tr ++ [b], c.wf = true :=
  List.forall_mem_append.mpr ⟨h, List.forall_mem_singleton.mpr hb⟩

theorem ok_wf {v : Wide} (hv : v.toNat < 2 ^ 15) : (Beat.ok v).wf = true := by
  have hdata : v.toNat < 32768 := hv
  simp [Beat.wf, Beat.ok, Beat.isResult, hdata]

theorem table_wf (i v : Byte) : (Beat.table i v).wf = true := by
  simp [Beat.wf, Beat.table, Beat.isTable, v.isLt]

/-- RESET leaves a machine at rest with FAULT clear and the trace as it was. -/
theorem resetCore_inv {s : State} (h : s.Inv) : s.resetCore.Inv where
  idle := fun _ => ⟨rfl, rfl⟩
  traceWf := h.traceWf
  tableSoFar := nofun
  faultShown := nofun

/-- IllegalCommand, of an idle machine, sets FAULT with the error beat that shows it (`60_exceptions.md` R120). -/
theorem raiseIllegal_inv {s : State} (hrest : s.seq.run = false) (h : s.Inv) : s.raiseIllegal.Inv where
  idle := h.idle
  traceWf := traceWf_append h.traceWf rfl
  tableSoFar := fun hrun => absurd (hrest.symm.trans hrun) Bool.false_ne_true
  faultShown := fun _ => by simp

/-- A result beat of at most 15 bits, of an idle machine. -/
theorem emitResult_inv {s : State} {v : Wide} (hrest : s.seq.run = false) (hv : v.toNat < 2 ^ 15) (h : s.Inv) :
    (s.emitResult v).Inv where
  idle := h.idle
  traceWf := traceWf_append h.traceWf (ok_wf hv)
  tableSoFar := fun hrun => absurd (hrest.symm.trans hrun) Bool.false_ne_true
  faultShown := fun hf => List.mem_append_left _ (h.faultShown hf)

/-- A table starts with none of its beats emitted. -/
theorem startTable_inv {s : State} (inv : Bool) (h : s.Inv) : (s.startTable inv).Inv where
  idle := nofun
  traceWf := h.traceWf
  tableSoFar := fun _ => List.nil_suffix
  faultShown := h.faultShown

/-- The beats of a running table up to its index, one beat and one index further. -/
theorem tableBeats_take_suffix {inv : Bool} {i : Byte} {tr : List Beat} (hi : i ≠ 255)
    (h : (tableBeats inv).take i.toNat <:+ tr) :
    (tableBeats inv).take (i + 1).toNat <:+ tr ++ [.table i (tableEntry inv i)] := by
  have hne : i.toNat ≠ 255 := fun h255 => hi (BitVec.eq_of_toNat_eq h255)
  have hlt := i.isLt
  rw [BitVec.toNat_add_of_lt (show i.toNat + 1 < 256 by omega), show (1 : Byte).toNat = 1 from rfl,
    tableBeats_take_succ inv hlt, BitVec.ofNat_toNat, BitVec.setWidth_eq]
  obtain ⟨front, hfront⟩ := h
  exact ⟨front, by rw [← hfront, List.append_assoc]⟩

/-- EMIT appends the beat that the table's beats so far lack, and rests exactly after the last (`10_state.md` R27). -/
theorem emitEntry_inv {s : State} (hrun : s.seq.run = true) (h : s.Inv) : s.emitEntry.Inv where
  idle := by
    by_cases hi : s.seq.idx = 255
    · exact fun _ => by simp [Seq.advance, hi]
    · exact fun hrest => absurd (hrest.symm.trans ((congrArg Seq.run (Seq.advance_of_ne hi)).trans hrun))
        Bool.false_ne_true
  traceWf := traceWf_append h.traceWf (table_wf _ _)
  tableSoFar := by
    by_cases hi : s.seq.idx = 255
    · exact fun hr => absurd hr (by simp [Seq.advance, hi])
    · rw [State.TableSoFar, State.emitEntry_seq, State.emitEntry_trace, Seq.advance_of_ne hi]
      exact fun _ => tableBeats_take_suffix hi (h.tableSoFar hrun)
  faultShown := fun hf => List.mem_append_left _ (h.faultShown hf)

/-- An operation, of an idle machine, answers a result beat of at most 15 bits or starts a table. -/
theorem exec_inv {i : Instr} {s t : State} (hrest : s.seq.run = false) (h : s.Inv) (ht : exec i s = .next t) :
    t.Inv := by
  rcases eq_or_ne i .gens with rfl | hgens
  · cases (exec_gens s).symm.trans ht
    exact startTable_inv false h
  · rcases eq_or_ne i .geni with rfl | hgeni
    · cases (exec_geni s).symm.trans ht
      exact startTable_inv true h
    · obtain ⟨v, hv, hfits, _⟩ := exec_fits hgens hgeni s
      cases hv.symm.trans ht
      exact emitResult_inv hrest hfits h

/-- Every step keeps the invariant, by the cases of a step. -/
theorem step_inv {s t : State} (h : s.Inv) (ht : step s = .next t) : t.Inv := by
  have hturn : s.dropTurn.Inv := inv_congr (s := s) rfl rfl rfl h
  have hword : s.dropTurn.dropWord.Inv := inv_congr (s := s.dropTurn) rfl rfl rfl hturn
  rcases step_cases s with ⟨_, hs⟩ | ⟨_, hrun, hs⟩ | ⟨_, _, _, _, hrest, _, _, hs⟩ | ⟨_, _, _, _, hrest, _, _, hs⟩ |
    ⟨_, _, _, hs⟩
  case inr.inr.inr.inl => exact exec_inv (s := s.dropTurn.dropWord) hrest hword (hs.symm.trans ht)
  all_goals cases ht.symm.trans hs
  · exact resetCore_inv hturn
  · exact emitEntry_inv hrun hturn
  · exact raiseIllegal_inv hrest hword
  · exact hturn

/-! ### The statements -/

/-- Settles O18. -/
theorem invariantKeptByEveryStep : Obligations.InvariantKeptByEveryStep := by
  unfold Obligations.InvariantKeptByEveryStep
  exact fun s t => step_inv

/-- Settles O9. -/
theorem stepRunsDecodedInstruction : Obligations.StepRunsDecodedInstruction := by
  unfold Obligations.StepRunsDecodedInstruction
  intro s w ws i hc hrest hw hd
  rw [step_accept hc hrest hw, acceptWord_legal hd, dropTurn_dropWord_eq hw]

/-- Settles O15. -/
theorem idleTurnLosesNothing : Obligations.IdleTurnLosesNothing := by
  unfold Obligations.IdleTurnLosesNothing
  exact fun s hc hrest hw => step_idle (nextKind_eq_none_iff.mpr ⟨hc, hrest, hw⟩)

/-- Settles O16: the presented word is accepted at once, since `presentFirst` puts the sequencer at rest and CORE on
turn. -/
theorem presentedWordRunsNext : Obligations.PresentedWordRunsNext := by
  unfold Obligations.PresentedWordRunsNext
  intro s nbits w i h
  unfold decodeTableWord at h
  split at h
  case isFalse => cases h
  case isTrue =>
    exact stepRunsDecodedInstruction (s.withFetchWord nbits w) (BitVec.ofNat 20 (w % 2 ^ nbits)) s.words i
      nofun rfl rfl (decodeLegal_eq_some.mp h)

/-- Settles O17: by induction on the number of steps. -/
theorem machineNeverStops : Obligations.MachineNeverStops := by
  unfold Obligations.MachineNeverStops
  intro n
  induction n with
  | zero => exact fun s => ⟨s, runSteps_zero s⟩
  | succ n ih =>
    intro s
    obtain ⟨u, hu⟩ := exists_step s
    obtain ⟨t, ht⟩ := ih u
    exact ⟨t, (runSteps_succ hu n).trans ht⟩

/-- Settles O20: by induction on the number of steps. -/
theorem traceOnlyGrows : Obligations.TraceOnlyGrows := by
  unfold Obligations.TraceOnlyGrows
  intro n
  induction n with
  | zero =>
    intro s t h
    cases h
    exact ⟨List.prefix_rfl, Nat.le_refl _⟩
  | succ n ih =>
    intro s t h
    obtain ⟨u, hstep, hrun⟩ := exists_step_of_runSteps_succ h
    obtain ⟨bs, hbs, hone⟩ := step_trace hstep
    obtain ⟨hpre, hlen⟩ := ih u t hrun
    rw [hbs] at hpre
    rw [hbs, List.length_append] at hlen
    exact ⟨(List.prefix_append _ _).trans hpre, by omega⟩

/-- Settles O21: one step by its kind, a run by induction on the number of steps. -/
theorem wordsTakenInOrder : Obligations.WordsTakenInOrder := by
  unfold Obligations.WordsTakenInOrder
  refine ⟨fun s t => step_words, fun n => ?_⟩
  induction n with
  | zero =>
    intro s t h
    cases h
    exact ⟨[], rfl, Nat.le_refl 0⟩
  | succ n ih =>
    intro s t h
    obtain ⟨u, hstep, hrun⟩ := exists_step_of_runSteps_succ h
    obtain ⟨taken, htaken, hlen⟩ := ih u t hrun
    rcases step_words hstep with ⟨w, _, hw⟩ | ⟨_, hw⟩
    · exact ⟨w :: taken, by rw [hw, htaken, List.cons_append], Nat.succ_le_succ hlen⟩
    · exact ⟨taken, hw.symm.trans htaken, Nat.le_succ_of_le hlen⟩

/-- Settles O24: an operation other than STAT answers a fixed result or starts a table; EMIT's beat is that of SEQ. -/
theorem beatsIndependentOfHistory : Obligations.BeatsIndependentOfHistory := by
  unfold Obligations.BeatsIndependentOfHistory
  refine ⟨fun i hi => ?_, fun q hrun => ⟨.table q.idx (tableEntry q.inv q.idx), fun s hseq hc => ?_⟩⟩
  · rcases exec_cases_of_ne_stat hi with ⟨v, hv⟩ | ⟨inv, hv⟩
    · exact ⟨[.ok v], fun s => ⟨_, hv s, rfl⟩⟩
    · exact ⟨[], fun s => ⟨_, hv s, (List.append_nil _).symm⟩⟩
  · subst hseq
    exact ⟨_, step_emit hc hrun, rfl⟩

end Sys2Proof.Machine
end

section
/-!
PROOFS. The statements about the run of a table and of a sequence of commands: a table ends (`43_sbox.md` section 3), a
RESET cuts it (`70_reset_and_hazards.md` R142), and commands are answered in order (`20_memory.md` R46, R64).
-/

namespace Sys2Proof.Machine

/-! ### A table cut by RESET -/

/-- A running table that has not reached its end emits its next `k` beats before a RESET placed after `k` turns, and the
RESET adds none: by induction on `k`. -/
theorem runSteps_reset_running {k : Nat} {s : State} {ts : List Turn} (hrun : s.seq.run = true)
    (hk : s.seq.idx.toNat + k ≤ 255) (hturns : s.turns = List.replicate k .core ++ .reset :: ts) :
    runSteps (k + 1) s = .next { s with
      seq := ⟨false, false, 0⟩
      fault := false
      trace := s.trace ++ ((tableBeats s.seq.inv).drop s.seq.idx.toNat).take k
      turns := ts } := by
  induction k generalizing s with
  | zero =>
    rw [runSteps_succ (step_reset hturns), runSteps_zero]
    exact congrArg Host.Outcome.next (State.ext_fields rfl rfl (by simp) rfl rfl)
  | succ k ih =>
    have hturn : s.CoreTurn := by simp [State.CoreTurn, hturns, List.replicate_succ]
    have hne : s.seq.idx ≠ 255 := fun h => by simp [h] at hk
    have hseq : s.dropTurn.emitEntry.seq = { s.seq with idx := s.seq.idx + 1 } := Seq.advance_of_ne hne
    have hidx : (s.seq.idx + 1).toNat = s.seq.idx.toNat + 1 :=
      BitVec.toNat_add_of_lt (show s.seq.idx.toNat + 1 < 256 by omega)
    have hrec := ih (s := s.dropTurn.emitEntry) (by rw [hseq]; exact hrun) (by rw [hseq, hidx]; omega)
      (by simp [hturns, List.replicate_succ])
    rw [runSteps_succ (step_emit hturn hrun), hrec]
    refine congrArg Host.Outcome.next (State.ext_fields rfl rfl ?_ rfl rfl)
    simp only [hseq, hidx, tableBeats_drop_toNat s.seq.inv s.seq.idx, List.take_succ_cons]
    simp

/-- LAST is set in no beat of a table before the one of entry 255 (`30_encoding.md` R61). -/
theorem tableBeats_take_last {inv : Bool} {k : Nat} (hk : k ≤ 255) {b : Beat} (hb : b ∈ (tableBeats inv).take k) :
    b.last = false := by
  obtain ⟨j, hj, rfl⟩ := List.mem_iff_getElem.mp hb
  rw [List.length_take, tableBeats_length] at hj
  have hne : BitVec.ofNat 8 j ≠ 255 := fun h => by
    have hval : j % 2 ^ 8 = 255 := (BitVec.toNat_ofNat j 8).symm.trans (congrArg BitVec.toNat h)
    omega
  simpa [tableBeats, Beat.table] using hne

/-! ### A run of several commands -/

/-- A run goes on from where its first part ended. -/
theorem runSteps_add {m : Nat} {s t : State} (h : runSteps m s = .next t) (n : Nat) :
    runSteps (m + n) s = runSteps n t := by
  induction m generalizing s with
  | zero =>
    cases h
    rw [Nat.zero_add]
  | succ m ih =>
    obtain ⟨u, hstep, hrun⟩ := exists_step_of_runSteps_succ h
    rw [Nat.add_right_comm, runSteps_succ hstep, ih hrun]

/-- No RESET among the next `m + n` turns: none among the first `m`, and none among the `n` after them. -/
theorem noResetFor_add {s : State} {m n : Nat} (h : s.NoResetFor (m + n)) :
    s.NoResetFor m ∧ ∀ t ∈ (s.turns.drop m).take n, t = .core := by
  rw [State.NoResetFor, List.take_add, List.forall_mem_append] at h
  exact h

/-! ### What one command does -/

/-- A word decodes to no operation exactly if it is illegal for one of the three causes. -/
theorem decodeLegal_isNone_iff {w : CmdWord} : (decodeLegal w).isNone = true ↔
    decode w = .illegal .reservedOp ∨ decode w = .illegal .nonzeroY ∨ decode w = .illegal .nonzeroZ := by
  unfold decodeLegal
  cases decode w with
  | legal i => simp
  | illegal c => cases c <;> simp

/-- The well-formedness of a word, by its OP and its zero bits as numbers (`30_encoding.md` R53, R54). -/
theorem wf_iff {w : CmdWord} : w.wf = true ↔
    (1 ≤ w.toNat / 65536 ∧ w.toNat / 65536 ≤ 11) ∧
    (4 ≤ w.toNat / 65536 → w.toNat / 65536 ≤ 8 → w.toNat / 256 % 256 = 0) ∧
    (9 ≤ w.toNat / 65536 → w.toNat / 65536 ≤ 11 → w.toNat % 65536 = 0) := by
  simp only [CmdWord.wf, CmdWord.opAssigned, CmdWord.oneOperandZero, CmdWord.noOperandZero, opField_toNat,
    Bool.and_eq_true, Bool.or_eq_true, Bool.not_eq_true', Bool.and_eq_false_iff, decide_eq_true_eq,
    decide_eq_false_iff_not, beq_iff_eq, yField_eq_zero_iff_toNat, zField_eq_zero_iff_toNat]
  omega

/-- The well-formed words are those that decode (`30_encoding.md` R55). -/
theorem not_wf_eq_isNone (w : CmdWord) : (!w.wf) = (decodeLegal w).isNone := by
  rw [Bool.eq_iff_iff, Bool.not_eq_true', ← Bool.not_eq_true, wf_iff, decodeLegal_isNone_iff, decode_eq_reservedOp_iff,
    decode_eq_nonzeroY_iff, decode_eq_nonzeroZ_iff]
  omega

/-- FAULT after a command is FAULT before it, or set by an illegal word (`10_state.md` R15). -/
theorem faultAfter_eq (fault : Bool) (w : CmdWord) : faultAfter fault w = (fault || (decodeLegal w).isNone) := by
  rw [faultAfter, not_wf_eq_isNone]

theorem faultAfter_of_legal {w : CmdWord} {i : Instr} (hd : decode w = .legal i) (fault : Bool) :
    faultAfter fault w = fault := by
  rw [faultAfter_eq, decodeLegal_eq_some.mpr hd, Option.isNone_some, Bool.or_false]

theorem faultAfter_of_illegal {w : CmdWord} {c : IllegalCause} (hd : decode w = .illegal c) (fault : Bool) :
    faultAfter fault w = true := by
  rw [faultAfter_eq, decodeLegal_of_illegal hd, Option.isNone_none, Bool.or_true]

theorem commandBeats_gens {w : CmdWord} (hd : decode w = .legal .gens) (fault : Bool) :
    commandBeats fault w = tableBeats false := by
  simp only [commandBeats, hd]

theorem commandBeats_geni {w : CmdWord} (hd : decode w = .legal .geni) (fault : Bool) :
    commandBeats fault w = tableBeats true := by
  simp only [commandBeats, hd]

theorem commandSteps_pos (w : CmdWord) : 0 < commandSteps w := by
  unfold commandSteps
  split <;> decide

/-- A word of no table operation takes one step (`10_state.md` R28). -/
theorem commandSteps_eq_one {w : CmdWord} (hgens : decode w ≠ .legal .gens) (hgeni : decode w ≠ .legal .geni) :
    commandSteps w = 1 := by
  refine if_neg ?_
  rintro (rfl | rfl)
  · exact hgens (decode_encode .gens)
  · exact hgeni (decode_encode .geni)

/-- An idle state after the command `w` has been answered, with the words `ws` still waiting. -/
def State.afterCommand (s : State) (w : CmdWord) (ws : List CmdWord) : State :=
  { s with
    fault := faultAfter s.fault w
    trace := s.trace ++ commandBeats s.fault w
    words := ws
    turns := s.turns.drop (commandSteps w) }

/-- A command of one step, when its ACCEPT leaves the state that the command leaves. -/
theorem runSteps_one_command {s t : State} {w : CmdWord} {ws : List CmdWord} (hgens : decode w ≠ .legal .gens)
    (hgeni : decode w ≠ .legal .geni) (hstep : step s = .next t) (hseq : t.seq = s.seq)
    (hfault : t.fault = faultAfter s.fault w) (htrace : t.trace = s.trace ++ commandBeats s.fault w)
    (hwords : t.words = ws) : runSteps (commandSteps w) s = .next (s.afterCommand w ws) := by
  rw [State.afterCommand, commandSteps_eq_one hgens hgeni, runSteps_succ hstep, runSteps_zero]
  exact congrArg Host.Outcome.next (State.ext_fields hseq hfault htrace hwords (by rw [step_turns hstep, List.drop_one]))

/-- A table command: 257 steps, the beats of the table and FAULT as it was. -/
theorem runSteps_table_command {s : State} {w : CmdWord} {ws : List CmdWord} {inv : Bool} {i : Instr}
    (hd : decode w = .legal i) (hexec : ∀ s, exec i s = .next (s.startTable inv)) (hsteps : commandSteps w = 257)
    (hbeats : commandBeats s.fault w = tableBeats inv) (hseq : s.seq = ⟨false, false, 0⟩) (hw : s.words = w :: ws)
    (hcore : s.NoResetFor (commandSteps w)) : runSteps (commandSteps w) s = .next (s.afterCommand w ws) := by
  rw [hsteps] at hcore ⊢
  rw [State.afterCommand, hsteps, hbeats, faultAfter_of_legal hd]
  exact emitsTable_of_decode hd hexec s ws hseq hw hcore

/-- From an idle state with no RESET placed, the first waiting word is answered in its number of steps
(`20_memory.md` R46). -/
theorem runSteps_command {s : State} {w : CmdWord} {ws : List CmdWord} (hseq : s.seq = ⟨false, false, 0⟩)
    (hw : s.words = w :: ws) (hcore : s.NoResetFor (commandSteps w)) :
    runSteps (commandSteps w) s = .next (s.afterCommand w ws) := by
  obtain ⟨n, hn⟩ := Nat.exists_eq_add_one.mpr (commandSteps_pos w)
  obtain ⟨hturn, _⟩ := noResetFor_succ (hn ▸ hcore)
  have hstep : step s = acceptWord w s.dropTurn.dropWord := step_accept hturn (by rw [hseq]) hw
  have hrest : s.dropTurn.dropWord.words = ws := by simp [hw]
  cases hd : decode w with
  | illegal c =>
    exact runSteps_one_command (by simp [hd]) (by simp [hd]) (hstep.trans (acceptWord_illegal hd _)) rfl
      (faultAfter_of_illegal hd _).symm (by simp [commandBeats, hd]) hrest
  | legal i =>
    rcases eq_or_ne i .gens with rfl | hgens
    · exact runSteps_table_command hd exec_gens (by rw [← encode_of_decode hd]; rfl) (commandBeats_gens hd _) hseq hw
        hcore
    · rcases eq_or_ne i .geni with rfl | hgeni
      · exact runSteps_table_command hd exec_geni (by rw [← encode_of_decode hd]; rfl) (commandBeats_geni hd _) hseq hw
          hcore
      · obtain ⟨v, hbeats, hexec⟩ := exec_eq_emitResult hd hgens hgeni s.dropTurn.dropWord
        refine runSteps_one_command (by simpa [hd] using hgens) (by simpa [hd] using hgeni)
          (hstep.trans ((acceptWord_legal hd _).trans hexec)) rfl (faultAfter_of_legal hd _).symm ?_ hrest
        exact congrArg (s.trace ++ ·) hbeats.symm

/-! ### What a sequence of commands does -/

/-- FAULT after a sequence: FAULT before it, or set by an illegal word among them. -/
theorem sequenceFault_eq (fault : Bool) (ws : List CmdWord) :
    sequenceFault fault ws = (fault || ws.any fun w => (decodeLegal w).isNone) := by
  induction ws generalizing fault with
  | nil => exact (Bool.or_false fault).symm
  | cons w ws ih =>
    have hcons : sequenceFault fault (w :: ws) = sequenceFault (faultAfter fault w) ws := rfl
    rw [hcons, ih, faultAfter_eq, List.any_cons, Bool.or_assoc]

/-- From an idle state with no RESET placed, all waiting words are answered in command order: by induction on them. -/
theorem runSteps_sequence {ws : List CmdWord} {s : State} (hseq : s.seq = ⟨false, false, 0⟩) (hw : s.words = ws)
    (hcore : s.NoResetFor (sequenceSteps ws)) :
    runSteps (sequenceSteps ws) s = .next { s with
      fault := sequenceFault s.fault ws
      trace := s.trace ++ sequenceBeats s.fault ws
      words := []
      turns := s.turns.drop (sequenceSteps ws) } := by
  induction ws generalizing s with
  | nil => exact congrArg Host.Outcome.next (State.ext_fields rfl rfl (List.append_nil _).symm hw rfl)
  | cons w ws ih =>
    have hsteps : sequenceSteps (w :: ws) = commandSteps w + sequenceSteps ws := List.sum_cons
    rw [hsteps] at hcore ⊢
    obtain ⟨hfirst, hthen⟩ := noResetFor_add hcore
    rw [runSteps_add (runSteps_command hseq hw hfirst), ih (s := s.afterCommand w ws) hseq rfl hthen]
    refine congrArg Host.Outcome.next (State.ext_fields rfl rfl ?_ rfl (List.drop_drop ..))
    exact List.append_assoc ..

/-! ### The statements -/

/-- Settles O25: with n + 1 beats still to come, the run of the table. -/
theorem runningTableCompletes : Obligations.RunningTableCompletes := by
  unfold Obligations.RunningTableCompletes
  intro s hrun hcore
  have hlt := s.seq.idx.isLt
  have hcount : 256 - s.seq.idx.toNat = 255 - s.seq.idx.toNat + 1 := by omega
  rw [hcount] at hcore ⊢
  exact runSteps_running hrun (by omega) hcore

/-- Settles O26: the table from its start. -/
theorem resetCutsTable : Obligations.ResetCutsTable := by
  unfold Obligations.ResetCutsTable
  intro s inv k ts hseq hk hturns
  have hrun := runSteps_reset_running (s := s) (by rw [hseq]) (by rw [hseq]; simpa using hk) hturns
  rw [hseq] at hrun
  exact ⟨hrun, fun b hb => tableBeats_take_last hk hb⟩

/-- Settles O27: the run of the sequence ends with no word waiting and the sequencer at rest. -/
theorem commandSequenceAnswered : Obligations.CommandSequenceAnswered := by
  unfold Obligations.CommandSequenceAnswered
  intro s hseq hcore
  refine ⟨_, runSteps_sequence hseq rfl hcore, ?_, ?_⟩
  · simp [State.finished, hseq]
  · rw [sequenceFault_eq]

/-- Settles O28: the sequence of the two words, each legal. -/
theorem genallEmitsBothTables : Obligations.GenallEmitsBothTables := by
  unfold Obligations.GenallEmitsBothTables
  refine ⟨by decide, fun s hseq hw hcore => ?_⟩
  have hrun := runSteps_sequence hseq hw hcore
  have hfault : sequenceFault s.fault [0x90000, 0xA0000] = s.fault := by
    rw [sequenceFault_eq, show ([0x90000, 0xA0000] : List CmdWord).any (fun w => (decodeLegal w).isNone) = false by decide,
      Bool.or_false]
  have hbeats : s.trace ++ sequenceBeats s.fault [0x90000, 0xA0000] = s.trace ++ tableBeats false ++ tableBeats true := by
    rw [sequenceBeats, sequenceBeats, sequenceBeats, commandBeats_gens (by decide), commandBeats_geni (by decide),
      List.append_nil, List.append_assoc]
  rw [hfault, hbeats] at hrun
  exact hrun

end Sys2Proof.Machine
end

section
/-!
PROOFS. The laws of `40_polynomial.md` (R72, R75), the bound of the reducer's loop (R74), and the laws of `41_field.md`
(R82, R87).
-/

namespace Sys2Proof.Machine

/-! ### The reducer -/

/-- Each iteration of the reducer lowers the bit-length, so that there is one for each length from the dividend's down
to the modulus's at most (`40_polynomial.md` R75 law 6). -/
theorem pmodLoopSteps_le {m : Nat} (hm : 0 < m) (fuel r : Nat) :
    pmodLoopSteps m fuel r ≤ bitlen r + 1 - bitlen m := by
  induction fuel generalizing r with
  | zero => exact Nat.zero_le _
  | succ fuel ih =>
    rw [pmodLoopSteps]
    split
    next hle =>
      have hlt := bitlen_reduce_lt hm hle
      have hrest := ih (r ^^^ (m <<< (bitlen r - bitlen m)))
      omega
    next => exact Nat.zero_le _

theorem pmodSteps_le (x : Nat) {m : Nat} (hm : 0 < m) : pmodSteps x m hm ≤ bitlen x + 1 - bitlen m :=
  pmodLoopSteps_le hm _ x

/-- A dividend of at most `n` bits takes the reducer modulo MODULUS at most `n - 8` iterations (`40_polynomial.md`
R74). -/
theorem pmodSteps_modulus_le {x n : Nat} (hx : x < 2 ^ n) : pmodSteps x modulus modulus_pos ≤ n - 8 := by
  have hsteps := pmodSteps_le x modulus_pos
  have hlen := bitlen_le_iff.mpr hx
  rw [show bitlen modulus = 9 by decide] at hsteps
  omega

/-- The remainder is below every power of two that the modulus reaches (`40_polynomial.md` R75 law 1). -/
theorem pmod_lt_two_pow (x : Nat) {m : Nat} (hm : 0 < m) : pmod x m hm < 2 ^ (bitlen m - 1) := by
  have hlen := bitlen_pmod_lt x hm
  exact bitlen_le_iff.mp (by omega)

/-- A multiple of the modulus reduces to 0 (`40_polynomial.md` R75). -/
theorem pmod_clmul_self (q : Nat) {m : Nat} (hm : 0 < m) : pmod (clmul q m) m hm = 0 :=
  (eq_pmod_of_xor_eq_clmul (r := 0) hm (bitlen_pos_iff.mpr hm) (Nat.xor_zero _)).symm

/-- Values that differ by a multiple of the modulus have the same remainder. -/
theorem pmod_eq_of_xor_eq_clmul {x y q m : Nat} (hm : 0 < m) (h : x ^^^ y = clmul q m) :
    pmod x m hm = pmod y m hm := by
  rw [← xor_eq_zero_iff, ← pmod_xor, h, pmod_clmul_self]

/-- Reducing a factor first does not change the remainder of a product. -/
theorem pmod_clmul_pmod_left (x y : Nat) {m : Nat} (hm : 0 < m) :
    pmod (clmul (pmod x m hm) y) m hm = pmod (clmul x y) m hm := by
  obtain ⟨q, hq⟩ := exists_xor_pmod_eq_clmul x hm
  refine (pmod_eq_of_xor_eq_clmul hm (q := clmul q y) ?_).symm
  rw [← clmul_xor_left, hq, clmul_assoc, clmul_comm m, ← clmul_assoc]

/-! ### The product in the field -/

/-- The product is associative (`41_field.md` R82): both sides are the remainder of the product of all three. -/
theorem gfmul_assoc (x y z : Byte) : gfmul (gfmul x y) z = gfmul x (gfmul y z) := by
  rw [← BitVec.toNat_inj, gfmul_toNat, gfmul_toNat, pmod_clmul_pmod_left, gfmul_toNat, gfmul_toNat,
    clmul_comm x.toNat (pmod _ _ _), pmod_clmul_pmod_left, clmul_comm _ x.toNat, clmul_assoc]

/-- The multiplication by x of R82 law 7: a shift, reduced by the modulus's low byte if the highest bit leaves. -/
def xtime (v : Byte) : Byte :=
  (v <<< 1) ^^^ (if v.getLsbD 7 then 0x1B else 0x00)

theorem xorAdditive_xtime : XorAdditive xtime := by
  intro u v
  have hreduce : (if (u ^^^ v).getLsbD 7 then 0x1B else 0x00 : Byte) =
      (if u.getLsbD 7 then 0x1B else 0x00) ^^^ (if v.getLsbD 7 then 0x1B else 0x00) := by
    rw [BitVec.getLsbD_xor]
    cases u.getLsbD 7 <;> cases v.getLsbD 7 <;> decide
  rw [xtime, xtime, xtime, hreduce, BitVec.shiftLeft_xor_distrib]
  ac_rfl

/-- Multiplication by 2 is `xtime` (`41_field.md` R82): both are additive and agree on the single bits. -/
theorem gfmul_two (v : Byte) : gfmul v 2 = xtime v := by
  have hadd : XorAdditive (gfmul · 2) := fun x y => gfmul_xor_left x y 2
  exact hadd.ext xorAdditive_xtime (by decide) v

/-! ### Powers -/

/-- The square, the map of Frobenius. -/
def gfsquare (x : Byte) : Byte :=
  gfmul x x

/-- Squaring is additive: the two mixed products cancel. -/
theorem xorAdditive_gfsquare : XorAdditive gfsquare := by
  intro x y
  rw [gfsquare, gfmul_xor_left, gfmul_xor_right, gfmul_xor_right, gfmul_comm y x, BitVec.xor_assoc,
    ← BitVec.xor_assoc (gfmul x y), BitVec.xor_self, BitVec.zero_xor]
  rfl

theorem XorAdditive.iterate {f : Byte → Byte} (hf : XorAdditive f) (n : Nat) : XorAdditive f^[n] := by
  induction n with
  | zero => exact fun _ _ => rfl
  | succ n ih => exact ih.comp hf

/-- Squaring eight times is the identity: it is additive and keeps the single bits. -/
theorem gfsquare_iterate_eight (x : Byte) : gfsquare^[8] x = x :=
  (xorAdditive_gfsquare.iterate 8).ext (fun _ _ => rfl : XorAdditive id) (by decide) x

theorem gfpow_add (x : Byte) (m n : Nat) : gfpow x (m + n) = gfmul (gfpow x m) (gfpow x n) := by
  induction n with
  | zero => exact (gfmul_one_right _).symm
  | succ n ih => rw [← Nat.add_assoc, gfpow, gfpow, ih, gfmul_assoc]

/-- A power whose exponent is a power of two is an iterated square. -/
theorem gfpow_two_pow (x : Byte) (k : Nat) : gfpow x (2 ^ k) = gfsquare^[k] x := by
  induction k with
  | zero => exact gfmul_one_left x
  | succ k ih => rw [Nat.pow_succ, Nat.mul_two, gfpow_add, ih, Function.iterate_succ_apply', gfsquare]

/-- The 255th power of a nonzero element is 1, since its 256th power is the element itself. -/
theorem gfpow_255 {x : Byte} (hx : x ≠ 0) : gfpow x 255 = 1 := by
  have hfrobenius : gfpow x (255 + 1) = x := (gfpow_two_pow x 8).trans (gfsquare_iterate_eight x)
  refine gfmul_injective hx ?_
  rw [gfmul_comm, gfmul_one_right]
  exact hfrobenius

/-- The 254th power is the inverse (`41_field.md` R87 law 5), at 0 as well. -/
theorem gfinv_eq_gfpow (x : Byte) : gfinv x = gfpow x 254 := by
  by_cases hx : x = 0
  · rw [hx, gfinv_zero]
    exact (gfmul_zero_right (gfpow 0 253)).symm
  · refine (eq_gfinv_of_gfmul_eq_one ?_).symm
    rw [gfmul_comm]
    exact gfpow_255 hx

/-! ### The statements -/

/-- Settles O31: the laws proved bit by bit for O30 and by the loop for the field's product. -/
theorem clmulLaws : Obligations.ClmulLaws := by
  unfold Obligations.ClmulLaws
  refine ⟨clmul_comm, clmul_xor_right, clmul_assoc, fun x => ⟨clmul_zero_right x, clmul_one_right x⟩, fun x k => ?_,
    fun x y hx hy => ?_, by decide⟩
  · rw [clmul_comm, clmul_two_pow_left]
  · rw [← bitlen_clmul hx hy, Nat.add_sub_cancel]

/-- Settles O33: range and additivity, the rest by the uniqueness of the remainder. -/
theorem pmodLaws : Obligations.PmodLaws := by
  unfold Obligations.PmodLaws
  intro m hm
  refine ⟨fun x => pmod_lt_two_pow x hm, fun x => pmod_of_bitlen_lt hm, fun x => ?_, fun x y => pmod_xor x y hm,
    fun q => pmod_clmul_self q hm, ?_, fun x r q => eq_pmod_of_xor_eq_clmul hm⟩
  · exact pmod_of_bitlen_lt hm (bitlen_pmod_lt x hm)
  · rintro rfl x
    exact Nat.lt_one_iff.mp (pmod_lt_two_pow x hm)

/-- Settles O34: the general bound with the bit-length 9 of MODULUS. -/
theorem pmodIterationBound : Obligations.PmodIterationBound := by
  unfold Obligations.PmodIterationBound
  exact ⟨fun x m hm => pmodSteps_le x hm, fun z => ⟨pmodSteps_modulus_le (n := 16) z.isLt, pmodSteps_modulus_le⟩,
    by decide⟩

/-- Settles O36. -/
theorem gfmulLaws : Obligations.GfmulLaws := by
  unfold Obligations.GfmulLaws
  refine ⟨gfmul_comm, gfmul_assoc, gfmul_xor_right, fun x => ⟨gfmul_one_right x, gfmul_zero_right x⟩,
    fun x y h => ?_, gfmul_two⟩
  by_cases hx : x = 0
  · exact .inl hx
  · exact .inr (eq_zero_of_gfmul_eq_zero hx h)

/-- Settles O38: the inverse's laws, and the 254th power by Frobenius. -/
theorem gfinvLaws : Obligations.GfinvLaws := by
  unfold Obligations.GfinvLaws
  have hinvolutive : Function.Involutive gfinv := gfinv_gfinv
  refine ⟨fun x => gfmul_gfinv, gfinv_gfinv, hinvolutive.bijective, fun x => ⟨gfinv_ne_zero, ?_⟩,
    fun x => ⟨eq_zero_or_one_of_gfinv_eq, ?_⟩, gfinv_eq_gfpow⟩
  · rintro hinv rfl
    exact hinv gfinv_zero
  · rintro (rfl | rfl)
    · exact gfinv_zero
    · exact gfinv_one

end Sys2Proof.Machine
end

section
/-!
PROOFS. The laws of `42_affine.md` (R91, R95), the packed forms of the matrices (`10_state.md` R22, R23), and the
complete tables (`41_field.md` R88, `43_sbox.md` R109, R111).
-/

namespace Sys2Proof.Machine

/-! ### The affine transform -/

theorem affine_zero (r : BitMatrix) (b : Byte) : affine r 0 b = b := by
  rw [affine, (xorAdditive_matVec r).map_zero]
  exact BitVec.zero_xor

/-- With the constant 0 the transform is its matrix part. -/
theorem affine_const_zero (r : BitMatrix) (x : Byte) : affine r x 0 = matVec r x :=
  BitVec.xor_zero

/-- The parity of a row and a single bit is the row's entry in that column. -/
theorem parity_and_single (u : Byte) (j : Fin 8) :
    parity (u.toNat &&& ((1 : Byte) <<< j.val).toNat) = u.getLsbD j := by
  have hother : ∀ i < 8, i ≠ j.val → (u.getLsbD i && ((1 : Byte) <<< j.val).getLsbD i) = false := by
    intro i hi hij
    have hbit : ((1 : Byte) <<< j.val).getLsbD i = false := by
      simp
      omega
    rw [hbit, Bool.and_false]
  have hown : ((1 : Byte) <<< j.val).getLsbD j = true := by simp
  rw [parity_and_eq_countP, countP_range_of_only j.isLt hother, hown, Bool.and_true]
  cases u.getLsbD j <;> rfl

/-- Column `j` of the matrix is the transform of the single bit `j` (`42_affine.md` R91 law 4). -/
theorem getLsbD_affine_single (r : BitMatrix) (i j : Fin 8) :
    (affine r (1 <<< j.val) 0).getLsbD i = (r.get i).getLsbD j := by
  have hcast : ((1 <<< j.val : Nat) : Byte) = (1 : Byte) <<< j.val := by
    revert j
    decide
  rw [hcast, affine_const_zero, getLsbD_matVec, parity_and_single]

/-! ### The rotation forms -/

/-- The two parts of a rotation have no bit in common, so they may be joined by XOR. -/
theorem rotl8_eq_xor (v : Byte) (k : Nat) : rotl8 v k = (v <<< k) ^^^ (v >>> (8 - k)) := by
  refine BitVec.eq_of_getLsbD_eq fun i hi => ?_
  rw [rotl8, BitVec.getLsbD_or, BitVec.getLsbD_xor]
  by_cases hik : i < k
  · simp [BitVec.getLsbD_shiftLeft, hik]
  · have hhigh : (v >>> (8 - k)).getLsbD i = false := by
      rw [BitVec.getLsbD_ushiftRight]
      exact BitVec.getLsbD_of_ge _ _ (by omega)
    rw [hhigh, Bool.or_false, Bool.xor_false]

theorem xorAdditive_rotl8 (k : Nat) : XorAdditive (rotl8 · k) := by
  intro x y
  simp only [rotl8_eq_xor, BitVec.shiftLeft_xor_distrib, BitVec.ushiftRight_xor_distrib]
  ac_rfl

theorem XorAdditive.xor {f g : Byte → Byte} (hf : XorAdditive f) (hg : XorAdditive g) :
    XorAdditive fun x => f x ^^^ g x := by
  intro x y
  simp only [hf x y, hg x y]
  ac_rfl

/-- `A_FWD` sums a vector and its rotations by 1 to 4 (`42_affine.md` R91 law 5). -/
theorem matVec_aFwd_eq_rotl8 (x : Byte) :
    matVec aFwd x = x ^^^ rotl8 x 1 ^^^ rotl8 x 2 ^^^ rotl8 x 3 ^^^ rotl8 x 4 := by
  have hid : XorAdditive id := fun _ _ => rfl
  have hsum := (((hid.xor (xorAdditive_rotl8 1)).xor (xorAdditive_rotl8 2)).xor (xorAdditive_rotl8 3)).xor
    (xorAdditive_rotl8 4)
  exact (xorAdditive_matVec aFwd).ext hsum (by decide) x

/-- `A_INV` sums a vector's rotations by 1, 3 and 6 (`42_affine.md` R91 law 5). -/
theorem matVec_aInv_eq_rotl8 (x : Byte) : matVec aInv x = rotl8 x 1 ^^^ rotl8 x 3 ^^^ rotl8 x 6 :=
  (xorAdditive_matVec aInv).ext (((xorAdditive_rotl8 1).xor (xorAdditive_rotl8 3)).xor (xorAdditive_rotl8 6))
    (by decide) x

/-! ### The round trip of the S-boxes -/

/-- Any matrix and constant in the inverse S-box undo the forward one exactly if they undo AFFF (`42_affine.md` R95):
inversion is a permutation and its own inverse. -/
theorem sbox_round_trip_iff (r : BitMatrix) (b : Byte) :
    (∀ x, gfinv (affine r (sbox x) b) = x) ↔ ∀ x, affine r (affine aFwd x bFwd) b = x := by
  constructor
  · intro h x
    have hx := h (gfinv x)
    rw [sbox, gfinv_gfinv] at hx
    rw [← gfinv_gfinv (affine r _ b), hx, gfinv_gfinv]
  · intro h x
    rw [sbox, h, gfinv_gfinv]

/-! ### The packed matrices -/

theorem unpackMatrix_aFwdPacked : unpackMatrix aFwdPacked = aFwd := by decide

theorem unpackMatrix_aInvPacked : unpackMatrix aInvPacked = aInv := by decide

/-! ### The complete tables -/

/-- The entry of a table of 16 rows of 16 at row `r`, column `c`. -/
def entryAt (t : List (List Byte)) (r c : Nat) : Option Byte :=
  t[r]?.bind (·[c]?)

/-- The byte of row `r`, column `c` (`43_sbox.md` R108). -/
def byteAt (r c : Nat) : Byte :=
  BitVec.ofNat 8 (16 * r + c)

/-- Every byte stands at a row and a column. -/
theorem byteAt_div_mod (x : Byte) : byteAt (x.toNat / 16) (x.toNat % 16) = x := by
  rw [byteAt, Nat.div_add_mod, BitVec.ofNat_toNat, BitVec.setWidth_eq]

/-- Every entry of the table of inverses has the product 1 with its index, or stands for the inverse of 0. -/
theorem inverseTable_products : ∀ r c : Fin 16, (entryAt Spec.inverseTable r c).any
    (fun y => gfmul (byteAt r c) y == 1 || (byteAt r c == 0 && y == 0)) = true := by
  decide

/-- The table of inverses (`41_field.md` R88), by one product for each entry. -/
theorem entryAt_inverseTable (r c : Fin 16) : entryAt Spec.inverseTable r c = some (gfinv (byteAt r c)) := by
  obtain ⟨y, hentry, hy⟩ := (Option.any_eq_true _ _).mp (inverseTable_products r c)
  rw [Bool.or_eq_true, Bool.and_eq_true, beq_iff_eq, beq_iff_eq, beq_iff_eq] at hy
  rw [hentry]
  rcases hy with hone | ⟨hindex, rfl⟩
  · rw [gfinv_eq_of_gfmul_eq_one hone]
  · rw [hindex, gfinv_zero]

/-- The forward table is the table of inverses under AFFF, entry by entry. -/
theorem sboxTable_eq_map : ∀ r c : Fin 16,
    entryAt Spec.sboxTable r c = (entryAt Spec.inverseTable r c).map (affine aFwd · bFwd) := by
  decide

/-- The forward table (`43_sbox.md` R109). -/
theorem entryAt_sboxTable (r c : Fin 16) : entryAt Spec.sboxTable r c = some (sbox (byteAt r c)) := by
  rw [sboxTable_eq_map, entryAt_inverseTable, Option.map_some, sbox]

/-- Every entry of the inverse table is the index at which the forward table holds the entry's own index. -/
theorem invSboxTable_back : ∀ r c : Fin 16, (entryAt Spec.invSboxTable r c).any
    (fun x => entryAt Spec.sboxTable (x.toNat / 16) (x.toNat % 16) == some (byteAt r c)) = true := by
  decide

/-- The inverse table (`43_sbox.md` R111), read off the forward one. -/
theorem entryAt_invSboxTable (r c : Fin 16) : entryAt Spec.invSboxTable r c = some (invSbox (byteAt r c)) := by
  obtain ⟨x, hentry, hx⟩ := (Option.any_eq_true _ _).mp (invSboxTable_back r c)
  have hrow : x.toNat / 16 < 16 := by omega
  have hforward := entryAt_sboxTable ⟨x.toNat / 16, hrow⟩ ⟨x.toNat % 16, Nat.mod_lt _ (by decide)⟩
  rw [byteAt_div_mod] at hforward
  have hsbox : sbox x = byteAt r c := Option.some.inj (hforward.symm.trans (beq_iff_eq.mp hx))
  rw [hentry, invSbox_eq_of_sbox_eq hsbox]

/-! ### The statements -/

/-- Settles O40: the matrix part is additive, and the two fixed matrices are sums of rotations. -/
theorem affineLaws : Obligations.AffineLaws := by
  unfold Obligations.AffineLaws
  refine ⟨affine_zero, fun r x b => ?_, fun r x y => ?_, getLsbD_affine_single, by decide, by decide, fun x => ?_,
    fun x => ?_⟩
  · rw [affine_const_zero, affine]
  · simp only [affine_const_zero, matVec_xor]
  · rw [affine, matVec_aFwd_eq_rotl8]
  · rw [affine, matVec_aInv_eq_rotl8]

/-- Settles O41: the matrices undo each other, and so do the transforms and the S-boxes. -/
theorem affineTransformsInverse : Obligations.AffineTransformsInverse := by
  unfold Obligations.AffineTransformsInverse
  exact ⟨affine_aInv_aFwd, affine_aFwd_aInv, fun x => ⟨matVec_aInv_aFwd x, matVec_aFwd_aInv x⟩, by decide,
    sbox_round_trip_iff⟩

/-- Settles O42: the rows by evaluation, the transforms since the packed literals unpack to the matrices. -/
theorem packedMatricesAgree : Obligations.PackedMatricesAgree := by
  unfold Obligations.PackedMatricesAgree
  refine ⟨by decide, rfl, rfl, fun x b => ⟨?_, ?_⟩⟩
  · rw [affinePacked, unpackMatrix_aFwdPacked]
  · rw [affinePacked, unpackMatrix_aInvPacked]

/-- Settles O45: the inverses by their products, the forward table by AFFF, the inverse table by the forward one. -/
theorem completeTables : Obligations.CompleteTables := by
  unfold Obligations.CompleteTables
  exact fun r c => ⟨entryAt_inverseTable r c, entryAt_sboxTable r c, entryAt_invSboxTable r c⟩

end Sys2Proof.Machine
end
